-- ==== Sys2Proof/Word.lean ====
section
/-! DEFINITION. The word types of the block: a byte (00_scope.md section 5) and the 32-bit register width (R11, R12). -/

namespace Sys2Proof

/-- A byte: 8 bits, bit 0 the least significant (00_scope.md section 5). -/
abbrev Byte := BitVec 8

/-- A 32-bit register: `CFG_MAXLEN` (`W_MAXLEN = 32`, R11) and the diagnostic counters (`W_DIAG = 32`, R12). -/
abbrev Word32 := BitVec 32

end Sys2Proof
end

