-- ==== Sys2Proof/Config.lean ====
section
/-! DEFINITION. What is fixed when the block is built (R9 to R15), and the free values: what the spec leaves unspecified
after RESET (R250). `W_MAXLEN` and `W_DIAG` are fixed at 32 (R11, R12) and are the widths of the types; `HOST_BINDING` is read
by no rule (R14). -/

namespace Sys2Proof.Config

/-- `MALFORMED_POLICY` (R13): what FEED shows of a malformed frame beside counting it. -/
inductive MalformedPolicy where
  | dropCount  -- DROP_COUNT, the default: no event
  | surface    -- SURFACE: a MALFORMED event in the frame's place
  deriving DecidableEq, Repr

/-- The build-time parameters (R15). A model takes them as arguments: every statement about a state holds for
every value of the parameters in it. -/
structure Params where
  cap       : Nat              -- CAP, R9
  nRulesMax : Nat              -- NRULES_MAX, R10
  policy    : MalformedPolicy  -- MALFORMED_POLICY, R13
  deriving DecidableEq, Repr

/-- The legal range of the parameters: `1 <= CAP <= 2^32 - 1` (R9) and `2 <= NRULES_MAX <= 255` (R10). -/
abbrev Params.Legal (p : Params) : Prop :=
  (1 ≤ p.cap ∧ p.cap ≤ 2 ^ 32 - 1) ∧ (2 ≤ p.nRulesMax ∧ p.nRulesMax ≤ 255)

/-- The parameters of `State.reset`: `CAP = 10240` and `DROP_COUNT` are the spec's defaults (R9, R13);
`NRULES_MAX = 255` is a DESIGN CHOICE, the spec leaves it OPEN (log 3). -/
def Params.default : Params := { cap := 10240, nRulesMax := 255, policy := .dropCount }

/-- A free byte: what an 8-bit configuration register holds after the RESET number `tick` (unspecified, R250).
`place` tells the registers apart. No body: nothing can be proved of its value (log 5). -/
opaque freeByte : (tick : Nat) → (place : Nat) → Byte

/-- A free 32-bit value: what `CFG_MAXLEN` holds after the RESET number `tick` (unspecified, R250; log 5). -/
opaque freeWord : (tick : Nat) → Word32

/-- A free number: what `CFG_NRULES` is drawn from after the RESET number `tick` (unspecified, R250; log 5). -/
opaque freeNat : (tick : Nat) → Nat

end Sys2Proof.Config
end

