-- ==== Sys2Proof/Machine/State.lean ====
section
/-! DEFINITION. The state of the block (R20), its events (R89), its reset (R250), and the reasons a step can stop. -/

namespace Sys2Proof.Machine

open Sys2Proof.Config

/-- The lifecycle register `LC` (R30). -/
inductive Lifecycle where
  | unconfigured  -- UNCONFIGURED = 0: no Protocol Definition constructed since reset
  | ready         -- READY = 1
  deriving DecidableEq, Repr

/-- One entry of the escape-rule table (R28): `CFG_RULE[k]`. -/
structure Rule where
  frag : Byte  -- FRAG: the payload byte the rule escapes
  repl : Byte  -- REPL: the second byte of its escape pair
  deriving DecidableEq, Repr

/-- The configuration registers (R24). -/
structure CfgRegs where
  maxLen  : Word32     -- CFG_MAXLEN, R25
  endByte : Byte       -- CFG_END, R26
  escByte : Byte       -- CFG_ESC, R27
  nRules  : Byte       -- CFG_NRULES, R28
  table   : List Rule  -- CFG_RULE[0 … NRULES_MAX-1], R28
  deriving DecidableEq, Repr

/-- The status of a response (R83). The codes 0x07 to 0xFF are never returned, so there is no constructor for them. -/
inductive Status where
  | ok
  | configError
  | malformedFrame
  | bufferOverflow
  | notConfigured
  | alreadyConfigured
  | illegalCommand
  deriving DecidableEq, Repr

/-- A port event (R89). -/
inductive Event where
  | msg (m : List Byte)                        -- MSG(m), message port
  | malformed                                  -- MALFORMED, message port, under SURFACE only
  | wire (s : List Byte)                       -- WIRE(s), outbound sink
  | resp (status : Status) (data : List Byte)  -- RESP(STATUS, DATA), host
  deriving DecidableEq, Repr

/-- What the outside hands to the block. A command is the pair `(OP, OPERAND)` (R81). `wire` is a run of one or more wire
bytes that the inbound data source hands over symbol by symbol, each symbol as the chunk of one FEED (R8 and R170; log 7, log 8). -/
inductive Input where
  | command (op : Byte) (operand : List Byte)
  | wire (first : Byte) (rest : List Byte)
  deriving DecidableEq, Repr

/-- The bytes of `ACC` that hold a value, by index: strictly rising indices. An index that is not listed holds no
value (R251: "A model may represent every unspecified item as having no value"; log 6). -/
abbrev Memory := List Host.Cell

/-- The canonical form of a memory: indices strictly rising. An unlisted index reads as no value, so no entry can repeat what
an unlisted index reads as. -/
abbrev Memory.wf (m : Memory) : Prop := m.Pairwise (fun p q => p.1 < q.1)

/-- The state of one instance of the block (R20, R39), with the parameters it was built with (log 3) and the model's own
fields `inbox` (log 2), `trace` (log 1) and `freeTick` (log 5). -/
structure State where
  params         : Params      -- build-time parameters, R15; no command writes them
  lc             : Lifecycle   -- LC, R30
  cfg            : CfgRegs     -- CFG_MAXLEN, CFG_END, CFG_ESC, CFG_NRULES, CFG_RULE, R24
  acc            : Memory      -- ACC, R31
  wc             : Nat         -- WC, R32; the invariant WC <= CAP is Safety's (log 10)
  malformedCount : Word32      -- MALFORMED_COUNT, R35
  overflowCount  : Word32      -- OVERFLOW_COUNT, R36
  inbox          : List Input  -- inputs not yet taken, oldest first
  trace          : List Event  -- the observation of the run so far, R7, oldest first
  freeTick       : Nat         -- draws the free values of RESET
  deriving DecidableEq, Repr

/-- Why a step stops with a fault. Both are safe: no run from reset reaches either. -/
inductive Fault where
  /-- Raised by `memRead` and `memWrite` for an access outside `ACC` (R51). Safe. -/
  | accOutOfRange
  /-- Raised by `memRead` for a byte of `ACC` that holds no value (R34; 93_implementation_defined.md U7: "best modelled as no
  value, so that a read would fault"). Safe. -/
  | accUnwritten
  deriving DecidableEq, Repr

/-- Why a step is refused. -/
inductive Refusal where
  /-- Raised by no arm of `exec`: every instruction has its meaning. Safe. -/
  | notModelled (mnemonic : String)
  deriving DecidableEq, Repr

/-- The configuration registers at power-on: the spec leaves them unspecified (R251); zero is a DESIGN CHOICE (log 4). -/
def CfgRegs.atPowerOn (p : Params) : CfgRegs :=
  { maxLen := 0, endByte := 0, escByte := 0, nRules := 0, table := List.replicate p.nRulesMax { frag := 0, repl := 0 } }

/-- Power-on (R250) of a block built with the parameters `p`. -/
def State.resetWith (p : Params) : State :=
  { params := p, lc := .unconfigured, cfg := CfgRegs.atPowerOn p, acc := [], wc := 0, malformedCount := 0, overflowCount := 0,
    inbox := [], trace := [], freeTick := 0 }

/-- Power-on (R250) of a block built with the default parameters. -/
def State.reset : State := State.resetWith Params.default

end Sys2Proof.Machine
end

