-- ==== Sys2Proof/Machine/Flags.lean ====
section
/-! DEFINITION. The block has no flags (R23): a command's outcome is the status of its response. Here are the status codes (R83),
the reason codes of CONFIG_ERROR (R88), and the errors with the status and the information each one carries (R220). -/

namespace Sys2Proof.Machine

/-- The byte `STATUS` (R83). -/
def Status.code : Status → Byte
  | .ok                => 0x00
  | .configError       => 0x01
  | .malformedFrame    => 0x02
  | .bufferOverflow    => 0x03
  | .notConfigured     => 0x04
  | .alreadyConfigured => 0x05
  | .illegalCommand    => 0x06

/-- Why CONFIGURE fails (R88). -/
inductive ConfigReason where
  | malformedOperand
  | ruleFieldMissing
  | tooManyRules
  | endEqualsEsc
  | duplicateFragment
  | endNotCovered
  | escNotCovered
  | duplicateReplacement
  | replacementIsEnd
  deriving DecidableEq, Repr

/-- The reason byte (R88). -/
def ConfigReason.code : ConfigReason → Byte
  | .malformedOperand     => 0x01
  | .ruleFieldMissing     => 0x02
  | .tooManyRules         => 0x03
  | .endEqualsEsc         => 0x04
  | .duplicateFragment    => 0x05
  | .endNotCovered        => 0x06
  | .escNotCovered        => 0x07
  | .duplicateReplacement => 0x08
  | .replacementIsEnd     => 0x09

/-- The errors a command can raise (R220). A malformed frame inside FEED is none of them: FEED goes on (R176). -/
inductive BlockError where
  | configError (reason : ConfigReason)
  | malformedFrame
  | bufferOverflow
  | notConfigured
  | alreadyConfigured
  | illegalCommand
  deriving DecidableEq, Repr

/-- The status of an error (R220). -/
def BlockError.status : BlockError → Status
  | .configError _     => .configError
  | .malformedFrame    => .malformedFrame
  | .bufferOverflow    => .bufferOverflow
  | .notConfigured     => .notConfigured
  | .alreadyConfigured => .alreadyConfigured
  | .illegalCommand    => .illegalCommand

/-- The `DATA` of an error's response: the reason byte of a CONFIG_ERROR, nothing for the others (R83). -/
def BlockError.info : BlockError → List Byte
  | .configError r => [r.code]
  | _              => []

end Sys2Proof.Machine
end

