-- ==== Sys2Proof/Machine/Operands.lean ====
section
/-! DEFINITION. The operand and readout forms: little-endian fields (R53), the rule lookups (R110), the CONFIGURE operand from
its bytes to the filled and checked definition (R84, R100 to R105), the notation of a configuration operand (R90, R91), and the
layouts of READ_STATUS (R86) and READ_CONFIG (R87). -/

namespace Sys2Proof.Machine

/-! ## Little-endian fields -/

/-- `le32(v)` (00_scope.md section 5). -/
def le32 (v : Word32) : List Byte :=
  [v.extractLsb' 0 8, v.extractLsb' 8 8, v.extractLsb' 16 8, v.extractLsb' 24 8]

/-- `rd_le32` of four bytes (00_scope.md section 5). -/
def rdLe32 (b0 b1 b2 b3 : Byte) : Word32 :=
  BitVec.ofNat 32 (b0.toNat + 256 * b1.toNat + 65536 * b2.toNat + 16777216 * b3.toNat)

/-! ## The rule table -/

/-- The rules: entries `0 … CFG_NRULES-1` of the table (R28). The entries above are read by no rule. -/
def CfgRegs.rules (c : CfgRegs) : List Rule := c.table.take c.nRules.toNat

/-- `CFG_RULE[k]`. -/
def CfgRegs.rule (c : CfgRegs) (k : Nat) : Rule := c.table.getD k { frag := 0, repl := 0 }

/-- `fragRule(b)`: the least `k < CFG_NRULES` with `CFG_RULE[k].FRAG = b` (R110). -/
def fragRule (c : CfgRegs) (b : Byte) : Option Nat := c.rules.findIdx? (fun r => r.frag == b)

/-- `replRule(b)`: the least `k < CFG_NRULES` with `CFG_RULE[k].REPL = b` (R110). -/
def replRule (c : CfgRegs) (b : Byte) : Option Nat := c.rules.findIdx? (fun r => r.repl == b)

/-! ## The Protocol Definition -/

/-- A Protocol Definition with every field filled (R101): what CONFIGURE checks and writes. -/
structure Definition where
  maxLen  : Word32
  endByte : Byte
  escByte : Byte
  rules   : List Rule
  deriving DecidableEq, Repr

/-- The default Protocol Definition (R100). -/
def Definition.default : Definition :=
  { maxLen := 256, endByte := 0xC0, escByte := 0xDB,
    rules := [{ frag := 0xC0, repl := 0xDC }, { frag := 0xDB, repl := 0xDD }] }

/-- `wf_reason` (R106): the lowest code of the failing checks of R104, none when the definition is well formed. -/
def wfReason (nRulesMax : Nat) (d : Definition) : Option ConfigReason :=
  if d.rules.length > nRulesMax then some .tooManyRules
  else if d.endByte = d.escByte then some .endEqualsEsc
  else if ¬ (d.rules.map Rule.frag).Nodup then some .duplicateFragment
  else if d.endByte ∉ d.rules.map Rule.frag then some .endNotCovered
  else if d.escByte ∉ d.rules.map Rule.frag then some .escNotCovered
  else if ¬ (d.rules.map Rule.repl).Nodup then some .duplicateReplacement
  else if d.endByte ∈ d.rules.map Rule.repl then some .replacementIsEnd
  else none

/-- The definition the configuration registers hold (R24). -/
def CfgRegs.definition (c : CfgRegs) : Definition :=
  { maxLen := c.maxLen, endByte := c.endByte, escByte := c.escByte, rules := c.rules }

/-- `WF` (R104) of the definition the configuration registers hold. -/
abbrev CfgRegs.WF (nRulesMax : Nat) (c : CfgRegs) : Prop := wfReason nRulesMax c.definition = none

/-- CONFIGURE's register writes (R106). Entries at and above the rule count keep what they hold (log 14). -/
def CfgRegs.load (d : Definition) (c : CfgRegs) : CfgRegs :=
  { maxLen := d.maxLen, endByte := d.endByte, escByte := d.escByte, nRules := BitVec.ofNat 8 d.rules.length,
    table := d.rules ++ c.table.drop d.rules.length }

/-! ## The CONFIGURE operand -/

/-- One rule entry of the operand: `RFLAGS_k`, `FRAG_k`, `REPL_k` (R84). -/
structure RuleEntry where
  rflags : Byte
  frag   : Byte
  repl   : Byte
  deriving DecidableEq, Repr

/-- The fields of a CONFIGURE operand (R84). `N` is the number of entries. -/
structure ConfigOperand where
  present : Byte
  maxLen  : Word32
  endByte : Byte
  escByte : Byte
  entries : List RuleEntry
  deriving DecidableEq, Repr

/-- The bytes after the header, three to an entry; none when they do not divide so (R84). -/
def splitEntries : List Byte → Option (List RuleEntry)
  | [] => some []
  | r :: f :: p :: tail =>
    match splitEntries tail with
    | some es => some ({ rflags := r, frag := f, repl := p } :: es)
    | none    => none
  | _ => none

/-- The operand's bytes as its fields; none when their number is not `8 + 3*N` (R84). -/
def splitConfigOperand : List Byte → Option ConfigOperand
  | present :: m0 :: m1 :: m2 :: m3 :: e :: c :: n :: tail =>
    match splitEntries tail with
    | some es =>
      if es.length = n.toNat then
        some { present := present, maxLen := rdLe32 m0 m1 m2 m3, endByte := e, escByte := c, entries := es }
      else none
    | none => none
  | _ => none

/-- The reserved bits `PRESENT[7:4]` and `RFLAGS_k[7:2]` are all 0 (R84). -/
def ConfigOperand.reservedClear (o : ConfigOperand) : Bool :=
  o.present.extractLsb' 4 4 == 0#4 && o.entries.all (fun e => e.rflags.extractLsb' 2 6 == 0#6)

/-- Operand syntax (R102). -/
def parseConfigOperand (op : List Byte) : Except ConfigReason ConfigOperand :=
  match splitConfigOperand op with
  | some o => if o.reservedClear then .ok o else .error .malformedOperand
  | none   => .error .malformedOperand

/-- `P_FRAG` and `P_REPL` are both 1 (R84). -/
def RuleEntry.complete (e : RuleEntry) : Bool := e.rflags.getLsbD 0 && e.rflags.getLsbD 1

/-- Filling from the defaults (R101), with the check for missing rule fields (R103). -/
def ConfigOperand.fill (o : ConfigOperand) : Except ConfigReason Definition :=
  let maxLen := if o.present.getLsbD 0 then o.maxLen else Definition.default.maxLen
  let endB := if o.present.getLsbD 1 then o.endByte else Definition.default.endByte
  let escB := if o.present.getLsbD 2 then o.escByte else Definition.default.escByte
  if o.present.getLsbD 3 then
    if o.entries.all RuleEntry.complete then
      .ok { maxLen := maxLen, endByte := endB, escByte := escB,
            rules := o.entries.map (fun e => { frag := e.frag, repl := e.repl }) }
    else .error .ruleFieldMissing
  else .ok { maxLen := maxLen, endByte := endB, escByte := escB, rules := Definition.default.rules }

/-- The whole construction of R106: syntax, filling, well-formedness, each failing with its lowest reason (R105). -/
def buildDefinition (nRulesMax : Nat) (op : List Byte) : Except ConfigReason Definition :=
  match parseConfigOperand op with
  | .error r => .error r
  | .ok o =>
    match o.fill with
    | .error r => .error r
    | .ok d =>
      match wfReason nRulesMax d with
      | some r => .error r
      | none   => .ok d

/-! ## Notation of a configuration operand -/

/-- The record form of a configuration operand (R90): only the given fields are present. -/
structure ConfigRecord where
  maxLen  : Option Word32
  endByte : Option Byte
  escByte : Option Byte
  rules   : Option (List Rule)
  deriving DecidableEq, Repr

/-- An entry `[03 FRAG REPL]` (R87, R90). -/
def Rule.entryBytes (r : Rule) : List Byte := [0x03, r.frag, r.repl]

/-- The `PRESENT` byte of a record (R90). -/
def ConfigRecord.present (r : ConfigRecord) : Byte :=
  (if r.maxLen.isSome then 1 else 0) + (if r.endByte.isSome then 2 else 0) + (if r.escByte.isSome then 4 else 0)
    + (if r.rules.isSome then 8 else 0)

/-- The operand a record expands to (R90): an absent field's bytes are 0. The rule list has at most 255 entries. -/
def ConfigRecord.operand (r : ConfigRecord) : List Byte :=
  let rs := r.rules.getD []
  [r.present] ++ le32 (r.maxLen.getD 0) ++ [r.endByte.getD 0, r.escByte.getD 0, BitVec.ofNat 8 rs.length]
    ++ rs.flatMap Rule.entryBytes

/-- The definition a record stands for (R101). -/
def ConfigRecord.filled (r : ConfigRecord) : Definition :=
  { maxLen := r.maxLen.getD Definition.default.maxLen, endByte := r.endByte.getD Definition.default.endByte,
    escByte := r.escByte.getD Definition.default.escByte, rules := r.rules.getD Definition.default.rules }

/-- The operand of the pseudo-command `CONFIGURE DEFAULT` (R91, R85): eight zero bytes. -/
def configureDefaultOperand : List Byte := List.replicate 8 0

/-! ## Readout layouts -/

/-- The byte `zext_8(LC)` (R30, R86). -/
def Lifecycle.code : Lifecycle → Byte
  | .unconfigured => 0x00
  | .ready        => 0x01

/-- READ_STATUS's 13 bytes (R86). -/
def State.statusData (s : State) : List Byte :=
  [s.lc.code] ++ le32 (BitVec.ofNat 32 s.wc) ++ le32 s.malformedCount ++ le32 s.overflowCount

/-- READ_CONFIG's `8 + 3*CFG_NRULES` bytes (R87). -/
def CfgRegs.configData (c : CfgRegs) : List Byte :=
  [0x0F] ++ le32 c.maxLen ++ [c.endByte, c.escByte, c.nRules] ++ c.rules.flatMap Rule.entryBytes

end Sys2Proof.Machine
end

