-- ==== Sys2Proof/Syntax.lean ====
section
/-! DEFINITION. The instructions: one constructor for each row of spec/opcode_table.json. -/

namespace Sys2Proof

/-- A row of the opcode table. The first nine are the commands (R82), each with its whole operand sequence; READ_STATUS,
READ_CONFIG, RESET and the reserved opcodes carry theirs unread (R205, R203). CONFIGURE carries its operand as bytes, because an
operand that does not have the layout of R84 is a command too and has an answer (R102). The last seven are the wire symbols
(R70 to R79), whose bytes the configuration registers give. -/
inductive Instr where
  | configure  (operand : List Byte)              -- CONFIGURE, R106
  | encode     (payload : List Byte)              -- ENCODE, R134
  | send       (payload : List Byte)              -- SEND, R135
  | decode     (body : List Byte)                 -- DECODE, R154
  | feed       (chunk : List Byte)                -- FEED, R180
  | readStatus (operand : List Byte)              -- READ_STATUS, R200
  | readConfig (operand : List Byte)              -- READ_CONFIG, R201
  | reset      (operand : List Byte)              -- RESET, R202
  | reserved   (op : Byte) (operand : List Byte)  -- RESERVED, R203
  | wireLiteral (b : Byte)                        -- WIRE_LITERAL, R72
  | wireEnd                                       -- WIRE_END, R79
  | wireEscPair (repl : Byte)                     -- WIRE_ESC_PAIR, R74: `repl` selects the rule
  | wireEscEndDefault                             -- WIRE_ESC_END_DEFAULT, R75
  | wireEscEscDefault                             -- WIRE_ESC_ESC_DEFAULT, R75
  | wireInvalidEscLast                            -- WIRE_INVALID_ESC_LAST, R76 (a)
  | wireInvalidEscOther (x : Byte)                -- WIRE_INVALID_ESC_OTHER, R76 (b)
  deriving DecidableEq, Repr

end Sys2Proof
end

