-- ==== Sys2Proof/WellFormed.lean ====
section
/-! DEFINITION. Which instructions are well formed: a reserved opcode is none of the eight commands (R82, R203), and a wire symbol
is one the configuration registers give (R72 to R79; 30_encoding.md). -/

namespace Sys2Proof

open Sys2Proof.Machine

/-- A reserved value of `OP`: `0x00` or `0x09`–`0xFF` (R82). -/
def opReserved (op : Byte) : Bool := op == 0x00 || decide (0x09 ≤ op.toNat)

/-- Well formed as syntax: the only check that needs no configuration. -/
def Instr.wf : Instr → Bool
  | .reserved op _ => opReserved op
  | .configure _ | .encode _ | .send _ | .decode _ | .feed _ | .readStatus _ | .readConfig _ | .reset _ => true
  | .wireLiteral _ | .wireEnd | .wireEscPair _ | .wireEscEndDefault | .wireEscEscDefault | .wireInvalidEscLast
  | .wireInvalidEscOther _ => true

/-- The default escape table is in force (R75): terminator, escape byte and rules are those of R100. -/
def escapeTableIsDefault (c : CfgRegs) : Bool :=
  c.endByte == Definition.default.endByte && c.escByte == Definition.default.escByte
    && decide (c.rules = Definition.default.rules)

/-- `[CFG_ESC, x]` can stand in a body on the wire: neither byte is the terminator, which would end the frame (R79). -/
def escSymbolFits (c : CfgRegs) (x : Byte) : Bool := c.escByte != c.endByte && x != c.endByte

/-- Well formed in a block whose lifecycle and configuration registers are `lc` and `c`: a command as `Instr.wf` says; a
wire symbol when its bytes are that symbol under `c`. A literal is any byte but the terminator and the escape byte (R77). While
`UNCONFIGURED` there is no wire format, and every wire byte is handed over as a literal (log 8). -/
def Instr.wfUnder (lc : Lifecycle) (c : CfgRegs) (i : Instr) : Bool :=
  i.wf && match lc, i with
  | _, .configure _ | _, .encode _ | _, .send _ | _, .decode _ | _, .feed _ | _, .readStatus _ | _, .readConfig _ | _, .reset _
  | _, .reserved _ _ => true
  | .unconfigured, .wireLiteral _ => true
  | .unconfigured, .wireEnd | .unconfigured, .wireEscPair _ | .unconfigured, .wireEscEndDefault
  | .unconfigured, .wireEscEscDefault | .unconfigured, .wireInvalidEscLast | .unconfigured, .wireInvalidEscOther _ => false
  | .ready, .wireLiteral b => b != c.endByte && b != c.escByte
  | .ready, .wireEnd => true
  | .ready, .wireEscPair r => escSymbolFits c r && (replRule c r).isSome && !escapeTableIsDefault c
  | .ready, .wireEscEndDefault | .ready, .wireEscEscDefault => escapeTableIsDefault c
  | .ready, .wireInvalidEscLast => c.escByte != c.endByte
  | .ready, .wireInvalidEscOther x => escSymbolFits c x && (replRule c x).isNone

end Sys2Proof
end

