-- ==== Sys2Proof/Decode.lean ====
section
/-! DEFINITION. From inputs to instructions and back: the commands by their opcode (R81, R82), the wire symbols by their bytes under
the configuration registers (R72 to R79), and the encoder of both. Decoding is total; the one thing it rejects, a
transaction with no opcode byte, it rejects by name. -/

namespace Sys2Proof

open Sys2Proof.Machine

/-! ## Commands -/

/-- The command with this `OP`: all 8 bits are matched (R82). -/
def decodeCommand (op : Byte) (operand : List Byte) : Instr :=
  if op = 0x01 then .configure operand
  else if op = 0x02 then .encode operand
  else if op = 0x03 then .send operand
  else if op = 0x04 then .decode operand
  else if op = 0x05 then .feed operand
  else if op = 0x06 then .readStatus operand
  else if op = 0x07 then .readConfig operand
  else if op = 0x08 then .reset operand
  else .reserved op operand

/-- Why bytes are no command. -/
inductive DecodeError where
  /-- A command is one opcode byte and an operand (R81): there is no opcode byte. -/
  | noOpcode
  deriving DecidableEq, Repr

/-- A command written `OP | OPERAND` (R90), as bytes. -/
def decodeCommandBytes : List Byte → Except DecodeError Instr
  | []            => .error .noOpcode
  | op :: operand => .ok (decodeCommand op operand)

/-! ## Wire symbols -/

/-- The symbol that begins with the escape byte and the byte `x` (R74 to R76). -/
def decodeEscape (c : CfgRegs) (x : Byte) : Instr :=
  match replRule c x with
  | none   => .wireInvalidEscOther x
  | some _ =>
    if escapeTableIsDefault c then
      if x = 0xDC then .wireEscEndDefault else .wireEscEscDefault
    else .wireEscPair x

/-- The first symbol of the wire bytes `b :: rest`, and the bytes after it. The terminator is found literally (R79), so an escape
byte before it is the last byte of its body (R76 (a)); so is one with nothing after it. The first byte tells a symbol's length (R73).
While `UNCONFIGURED` no configuration register is read and every byte is handed over as a literal (R251; log 8). -/
def decodeWire (lc : Lifecycle) (c : CfgRegs) (b : Byte) (rest : List Byte) : Instr × List Byte :=
  match lc with
  | .unconfigured => (.wireLiteral b, rest)
  | .ready =>
    if b = c.endByte then (.wireEnd, rest)
    else if b = c.escByte then
      match rest with
      | [] => (.wireInvalidEscLast, [])
      | x :: tail => if x = c.endByte then (.wireInvalidEscLast, x :: tail) else (decodeEscape c x, tail)
    else (.wireLiteral b, rest)

/-! ## Inputs -/

/-- Wire bytes as an input, none where there are none. -/
def wireInput : List Byte → Option Input
  | []        => none
  | b :: rest => some (.wire b rest)

/-- The instruction an input holds first, and what is left of the input. -/
def decodeInput (lc : Lifecycle) (c : CfgRegs) : Input → Instr × Option Input
  | .command op operand => (decodeCommand op operand, none)
  | .wire b rest        => ((decodeWire lc c b rest).1, wireInput (decodeWire lc c b rest).2)

/-! ## Encoder -/

/-- The input that carries an instruction, under the configuration registers `c`: opcode and operand of a command (R82), the bytes
of a wire symbol (R72 to R76). -/
def encodeInput (c : CfgRegs) : Instr → Input
  | .configure operand     => .command 0x01 operand
  | .encode payload        => .command 0x02 payload
  | .send payload          => .command 0x03 payload
  | .decode body           => .command 0x04 body
  | .feed chunk            => .command 0x05 chunk
  | .readStatus operand    => .command 0x06 operand
  | .readConfig operand    => .command 0x07 operand
  | .reset operand         => .command 0x08 operand
  | .reserved op operand   => .command op operand
  | .wireLiteral b         => .wire b []
  | .wireEnd               => .wire c.endByte []
  | .wireEscPair repl      => .wire c.escByte [repl]
  | .wireEscEndDefault     => .wire 0xDB [0xDC]
  | .wireEscEscDefault     => .wire 0xDB [0xDD]
  | .wireInvalidEscLast    => .wire c.escByte []
  | .wireInvalidEscOther x => .wire c.escByte [x]

/-- An input as the bytes it is written with: `OP | OPERAND`, or the wire bytes. -/
def inputBytes : Input → List Byte
  | .command op operand => op :: operand
  | .wire b rest        => b :: rest

/-! ## Words of the opcode table -/

/-- The bytes of a table word above its first: byte `j` is bits `8j+7 … 8j`. -/
def tableBytes (nbits w : Nat) : List Byte :=
  (List.range (nbits / 8 - 1)).map fun j => BitVec.ofNat 8 (w / 256 ^ (j + 1))

/-- The operand of a table word, with the zero bytes the table gives no bits: CONFIGURE's shortest operand is
eight bytes (R84), every other command's is empty. -/
def tableOperand (op : Byte) (bytes : List Byte) : List Byte :=
  if op = 0x01 then bytes ++ List.replicate (8 - bytes.length) 0 else bytes

/-- A table word as an input. The table gives 16 bits to the two-byte wire symbols alone, and their first byte is the escape byte;
a word of another size or with another first byte is a command (log 9). -/
def tableInput (nbits w : Nat) : Input :=
  let first : Byte := BitVec.ofNat 8 w
  if nbits = 16 ∧ first = Definition.default.escByte then .wire first (tableBytes nbits w)
  else .command first (tableOperand first (tableBytes nbits w))

/-- The configuration registers under the default definition (R100), for the wire words of the table. -/
def defaultRegs : CfgRegs := (CfgRegs.atPowerOn Config.Params.default).load Definition.default

/-- The instruction this decoder reads from a word of the opcode table. -/
def decodeTableWord (nbits w : Nat) : Option Instr :=
  some (decodeInput .ready defaultRegs (tableInput nbits w)).1

end Sys2Proof
end

