-- ==== Sys2Proof/Machine/Ops.lean ====
section
/-! DEFINITION. The named operations: reading and writing `ACC` (R50, R51), emitting an event, responding, raising an error, and
the lifecycle gate. The block takes no exception and returns from none (R221): `raise` is the one operation every error goes
through. -/

namespace Sys2Proof.Machine

/-- What a command answers: a next state, a fault or a refusal. -/
abbrev Result := Host.Outcome State Fault Refusal

/-! ## The accumulation buffer -/

/-- `ACC[a]`, none where the byte holds no value (R34). -/
def Memory.read : Memory → Nat → Option Byte
  | [], _ => none
  | (k, v) :: m, a => if k = a then some v else Memory.read m a

/-- `ACC[a] <- b`, keeping the canonical form. -/
def Memory.write : Memory → Nat → Byte → Memory
  | [], a, b => [(a, b)]
  | (k, v) :: m, a, b =>
    if a < k then (a, b) :: (k, v) :: m
    else if a = k then (a, b) :: m
    else (k, v) :: Memory.write m a b

/-- `ACC[a], …, ACC[a+n-1]`, none where one of them holds no value. -/
def Memory.readBytes (m : Memory) : Nat → Nat → Option (List Byte)
  | _, 0 => some []
  | a, n + 1 =>
    match m.read a, Memory.readBytes m (a + 1) n with
    | some b, some bs => some (b :: bs)
    | _, _ => none

/-- The bytes of `s` written to `a`, `a+1`, … in order (R52). -/
def Memory.writeBytes (m : Memory) (a : Nat) : List Byte → Memory
  | [] => m
  | b :: bs => Memory.writeBytes (m.write a b) (a + 1) bs

/-- `MemRead(a, n)` (00_scope.md section 5), defined for `a + n <= CAP` (R51). -/
def memRead (s : State) (a n : Nat) : Except Fault (List Byte) :=
  if a + n ≤ s.params.cap then
    match s.acc.readBytes a n with
    | some bs => .ok bs
    | none    => .error .accUnwritten
  else .error .accOutOfRange

/-- `MemWrite(a, len(bs), bs)` (00_scope.md section 5), defined for `a + len(bs) <= CAP` (R51). -/
def memWrite (s : State) (a : Nat) (bs : List Byte) : Except Fault State :=
  if a + bs.length ≤ s.params.cap then .ok { s with acc := s.acc.writeBytes a bs }
  else .error .accOutOfRange

/-- The pending frame `ACC[0..WC)` (R33), none in a state no run reaches in which a byte of it holds no value. -/
def State.pending (s : State) : Option (List Byte) := s.acc.readBytes 0 s.wc

/-! ## Events, responses, errors -/

/-- `emit` (00_scope.md section 5). -/
def State.emit (e : Event) (s : State) : State := { s with trace := s.trace ++ [e] }

/-- `respond(STATUS, DATA)` (00_scope.md section 5): the event `RESP` after all others of the step, and the command's end. -/
def respond (st : Status) (data : List Byte) (s : State) : Result := .next (s.emit (.resp st data))

/-- `raise <Error>(info)` (00_scope.md section 5, R220): a response with the error's status and information. What was
written before stays written (R222), nothing is saved, and no control is transferred (R221). -/
def raise (e : BlockError) (s : State) : Result := respond e.status e.info s

/-- The lifecycle gate of the commands that need a Protocol Definition (R204). -/
def whenReady (s : State) (run : State → Result) : Result :=
  match s.lc with
  | .unconfigured => raise .notConfigured s
  | .ready        => run s

/-! ## The cursor and the counters -/

/-- `MALFORMED_COUNT <- wrap_32(MALFORMED_COUNT + 1)`, with the MALFORMED event under SURFACE (R176). -/
def State.dropMalformed (s : State) : State :=
  let s := { s with malformedCount := s.malformedCount + 1 }
  match s.params.policy with
  | .dropCount => s
  | .surface   => s.emit .malformed

/-- The effect of an overflow on the registers (R174, steps 2 and 3). -/
def State.dropOverflow (s : State) : State :=
  { s with wc := 0, overflowCount := s.overflowCount + 1 }

/-- `WC <- 0` after a terminator (R177). No byte of `ACC` is cleared. -/
def State.clearCursor (s : State) : State := { s with wc := 0 }

/-- `WC <- WC + n` (R172, R173). -/
def State.advanceCursor (n : Nat) (s : State) : State := { s with wc := s.wc + n }

end Sys2Proof.Machine
end

