-- ==== Sys2Proof/Machine/Control.lean ====
section
/-! DEFINITION. The control commands: READ_STATUS (R200), READ_CONFIG (R201), RESET (R202, R250) and the reserved opcodes
(R203). -/

namespace Sys2Proof.Machine

open Sys2Proof.Config

/-- READ_STATUS (R200), allowed in both lifecycle states. -/
def execReadStatus (_operand : List Byte) (s : State) : Result := respond .ok s.statusData s

/-- READ_CONFIG (R201). -/
def execReadConfig (_operand : List Byte) (s : State) : Result :=
  whenReady s fun s => respond .ok s.cfg.configData s

/-- The configuration registers after a RESET: every one unspecified (R250), so every one a free value drawn with `tick`, within
the limits that stand: `CFG_NRULES` is `0 … NRULES_MAX` (R20) and the table has `NRULES_MAX` entries (R10). Log 5. -/
def CfgRegs.unspecified (p : Params) (tick : Nat) : CfgRegs :=
  { maxLen := freeWord tick, endByte := freeByte tick 0, escByte := freeByte tick 1,
    nRules := BitVec.ofNat 8 (freeNat tick % (p.nRulesMax + 1)),
    table := (List.range p.nRulesMax).map
      fun k => { frag := freeByte tick (2 * k + 2), repl := freeByte tick (2 * k + 3) } }

/-- The reset of R250 as the RESET command applies it: the registers R250 gives a value get it, the configuration
registers become unspecified (log 5), and no byte of `ACC` holds a value (log 6). No event. -/
def State.applyReset (s : State) : State :=
  { s with lc := .unconfigured, wc := 0, malformedCount := 0, overflowCount := 0,
           cfg := CfgRegs.unspecified s.params s.freeTick, acc := [], freeTick := s.freeTick + 1 }

/-- RESET (R202), allowed in both lifecycle states. -/
def execReset (_operand : List Byte) (s : State) : Result := respond .ok [] s.applyReset

/-- A reserved opcode (R203): no state changes, ILLEGAL_COMMAND in both lifecycle states. -/
def execReserved (_op : Byte) (_operand : List Byte) (s : State) : Result := raise .illegalCommand s

end Sys2Proof.Machine
end

