-- ==== Sys2Proof/Machine/Encoder.lean ====
section
/-! DEFINITION. The Frame Encoder: `encode` (R130), ENCODE (R134) and SEND (R135). -/

namespace Sys2Proof.Machine

/-- The symbol the encoder writes for one payload byte (R72, R74). -/
def escapeByte (c : CfgRegs) (b : Byte) : List Byte :=
  match fragRule c b with
  | some k => [c.escByte, (c.rule k).repl]
  | none   => [b]

/-- `encode(p)` (R130). -/
def slipEncode (c : CfgRegs) : List Byte → List Byte
  | []     => []
  | b :: p => escapeByte c b ++ slipEncode c p

/-- `encode(p) ++ [CFG_END]`: a whole frame (R70). -/
def frameOf (c : CfgRegs) (p : List Byte) : List Byte := slipEncode c p ++ [c.endByte]

/-- ENCODE (R134). -/
def execEncode (p : List Byte) (s : State) : Result :=
  whenReady s fun s => respond .ok (slipEncode s.cfg p) s

/-- SEND (R135). -/
def execSend (p : List Byte) (s : State) : Result :=
  whenReady s fun s => respond .ok [] (s.emit (.wire (frameOf s.cfg p)))

end Sys2Proof.Machine
end

