-- ==== Sys2Proof/Machine/Protocol.lean ====
section
/-! DEFINITION. The Protocol Definition unit: CONFIGURE (R106). -/

namespace Sys2Proof.Machine

/-- CONFIGURE (R106): on success the configuration registers and `LC` are written; on an error nothing is. -/
def execConfigure (operand : List Byte) (s : State) : Result :=
  match s.lc with
  | .ready        => raise .alreadyConfigured s
  | .unconfigured =>
    match buildDefinition s.params.nRulesMax operand with
    | .error r => raise (.configError r) s
    | .ok d    => respond .ok [] { s with cfg := s.cfg.load d, lc := .ready }

end Sys2Proof.Machine
end

