-- ==== Sys2Proof/Machine/Decoder.lean ====
section
/-! DEFINITION. The Frame Decoder: `decode` (R150) and DECODE (R154). -/

namespace Sys2Proof.Machine

/-- `decode(f)` (R150): `some m` is `VALID(m)`, `none` is `INVALID`. The scan goes symbol by symbol (R73) and stops at the first
malformed escape (R151). -/
def slipDecode (c : CfgRegs) : List Byte → Option (List Byte)
  | [] => some []
  | [b] => if b = c.escByte then none else some [b]
  | b :: x :: f =>
    if b = c.escByte then
      match replRule c x with
      | some k => (slipDecode c f).map ((c.rule k).frag :: ·)
      | none   => none
    else (slipDecode c (x :: f)).map (b :: ·)

/-- DECODE (R154). -/
def execDecode (f : List Byte) (s : State) : Result :=
  whenReady s fun s =>
    match slipDecode s.cfg f with
    | some m => respond .ok m s
    | none   => raise .malformedFrame s

end Sys2Proof.Machine
end

