-- ==== Sys2Proof/Machine/Reassembler.lean ====
section
/-! DEFINITION. The Stream Reassembler: FEED (R180), and the byte-serial step of R184. -/

namespace Sys2Proof.Machine

/-- `firstIndex(rest, b)` (R171): a literal search, no escape is interpreted. -/
def firstIndex (rest : List Byte) (b : Byte) : Option Nat := rest.findIdx? (· == b)

/-- A frame is complete (R175 to R178): a non-empty pending frame is decoded and its message emitted, or it is
dropped as malformed; the cursor is reset in every case. -/
def completeFrame (s : State) : Except Fault State :=
  if s.wc > 0 then
    match memRead s 0 s.wc with
    | .error f => .error f
    | .ok body =>
      match slipDecode s.cfg body with
      | some m => .ok (s.emit (.msg m)).clearCursor
      | none   => .ok s.dropMalformed.clearCursor
  else .ok s.clearCursor

/-- FEED's loop (R180). Every pass but the last takes a terminator off `rest`, so `len(rest) + 1` passes are
enough and the fuel never runs out (R265; log 11). -/
def feedLoop : Nat → List Byte → State → Result
  | 0, _, s => respond .ok [] s
  | fuel + 1, rest, s =>
    let e := firstIndex rest s.cfg.endByte
    let seg := match e with
      | none   => rest
      | some e => rest.take e
    if s.wc + seg.length > s.params.cap then raise .bufferOverflow s.dropOverflow
    else
      match memWrite s s.wc seg with
      | .error f => .fault f
      | .ok s =>
        let s := s.advanceCursor seg.length
        match e with
        | none => respond .ok [] s
        | some e =>
          match completeFrame s with
          | .error f => .fault f
          | .ok s =>
            let rest := rest.drop (e + 1)
            if rest = [] then respond .ok [] s else feedLoop fuel rest s

/-- FEED as one operation: the gate, then the loop over the chunk (R180). -/
def feedChunk (chunk : List Byte) (s : State) : Result :=
  whenReady s fun s => feedLoop (chunk.length + 1) chunk s

/-- FEED (R180). -/
def execFeed (chunk : List Byte) (s : State) : Result := feedChunk chunk s

/-! ## Byte-serial step (R184) -/

/-- What one byte of a byte-serial FEED answers (R184). -/
inductive ByteStep where
  | next  (s : State)
  | abort (s : State)  -- BUFFER_OVERFLOW: the rest of the chunk is not looked at
  | fault (f : Fault)
  deriving DecidableEq, Repr

/-- `feedByte(b)` (R184). -/
def feedByte (b : Byte) (s : State) : ByteStep :=
  if b = s.cfg.endByte then
    match completeFrame s with
    | .ok s    => .next s
    | .error f => .fault f
  else if s.wc = s.params.cap then .abort s.dropOverflow
  else
    match memWrite s s.wc [b] with
    | .ok s    => .next (s.advanceCursor 1)
    | .error f => .fault f

/-- `feedByte` over the bytes of a chunk, stopping at the first abort (R184). -/
def feedBytes : List Byte → State → ByteStep
  | [], s => .next s
  | b :: bs, s =>
    match feedByte b s with
    | .next s  => feedBytes bs s
    | .abort s => .abort s
    | .fault f => .fault f

/-- FEED done one byte at a time (R184). -/
def feedSerial (chunk : List Byte) (s : State) : Result :=
  whenReady s fun s =>
    match feedBytes chunk s with
    | .next s  => respond .ok [] s
    | .abort s => raise .bufferOverflow s
    | .fault f => .fault f

end Sys2Proof.Machine
end

