-- ==== Sys2Proof/Machine/Wire.lean ====
section
/-! DEFINITION. The wire symbols (R70 to R79) as the block receives them. The inbound data source hands over bytes only through
FEED (R8), in chunks of any size (R170), so a symbol's meaning is FEED of exactly its bytes (log 7): the bytes join the pending
frame as they are (R33), a terminator ends the frame, and only then is the frame decoded (R158, R175). -/

namespace Sys2Proof.Machine

/-- WIRE_LITERAL (R72, R77): the byte `b`. -/
def execWireLiteral (b : Byte) (s : State) : Result := feedChunk [b] s

/-- WIRE_END (R79): the terminator `CFG_END`. -/
def execWireEnd (s : State) : Result := feedChunk [s.cfg.endByte] s

/-- WIRE_ESC_PAIR (R74): `[CFG_ESC, REPL]`. -/
def execWireEscPair (repl : Byte) (s : State) : Result := feedChunk [s.cfg.escByte, repl] s

/-- WIRE_ESC_END_DEFAULT (R75): `[DB DC]`. -/
def execWireEscEndDefault (s : State) : Result := feedChunk [0xDB, 0xDC] s

/-- WIRE_ESC_ESC_DEFAULT (R75): `[DB DD]`. -/
def execWireEscEscDefault (s : State) : Result := feedChunk [0xDB, 0xDD] s

/-- WIRE_INVALID_ESC_LAST (R76 (a)): `CFG_ESC`, the last byte of its body. The frame is found malformed when the terminator ends
it (R171, R176). -/
def execWireInvalidEscLast (s : State) : Result := feedChunk [s.cfg.escByte] s

/-- WIRE_INVALID_ESC_OTHER (R76 (b)): `[CFG_ESC, x]`, `x` no replacement. The frame is found malformed when the terminator ends it
(R176). -/
def execWireInvalidEscOther (x : Byte) (s : State) : Result := feedChunk [s.cfg.escByte, x] s

end Sys2Proof.Machine
end

