-- ==== Sys2Proof/Machine/Dispatch.lean ====
section
/-! DEFINITION. The meaning of every instruction: one arm per constructor. -/

namespace Sys2Proof.Machine

def exec (i : Instr) (s : State) : Host.Outcome State Fault Refusal :=
  match i with
  | .configure operand => Sys2Proof.Machine.execConfigure operand s
  | .encode payload => Sys2Proof.Machine.execEncode payload s
  | .send payload => Sys2Proof.Machine.execSend payload s
  | .decode body => Sys2Proof.Machine.execDecode body s
  | .feed chunk => Sys2Proof.Machine.execFeed chunk s
  | .readStatus operand => Sys2Proof.Machine.execReadStatus operand s
  | .readConfig operand => Sys2Proof.Machine.execReadConfig operand s
  | .reset operand => Sys2Proof.Machine.execReset operand s
  | .reserved op operand => Sys2Proof.Machine.execReserved op operand s
  | .wireLiteral b => Sys2Proof.Machine.execWireLiteral b s
  | .wireEnd => Sys2Proof.Machine.execWireEnd s
  | .wireEscPair repl => Sys2Proof.Machine.execWireEscPair repl s
  | .wireEscEndDefault => Sys2Proof.Machine.execWireEscEndDefault s
  | .wireEscEscDefault => Sys2Proof.Machine.execWireEscEscDefault s
  | .wireInvalidEscLast => Sys2Proof.Machine.execWireInvalidEscLast s
  | .wireInvalidEscOther x => Sys2Proof.Machine.execWireInvalidEscOther x s

end Sys2Proof.Machine
end

