-- ==== Sys2Proof/Machine/Step.lean ====
section
/-! DEFINITION. One step: the block takes the oldest input of the queue and runs the instruction it holds, to completion (R6). -/

namespace Sys2Proof.Machine

/-- One step. With nothing in the queue the block waits for a command (R252) and holds its state (R241). -/
def step (s : State) : Host.Outcome State Fault Refusal :=
  match s.inbox with
  | [] => .next s
  | input :: queue =>
    exec (decodeInput s.lc s.cfg input).1
      { s with inbox := (decodeInput s.lc s.cfg input).2.toList ++ queue }

/-- `s` with a word of the opcode table as its oldest input (log 9). A wire word means something only in a configured block, so
for one the block is configured with the default definition (R100), as CONFIGURE DEFAULT would do. -/
def State.withFetchWord (s : State) (nbits w : Nat) : State :=
  match tableInput nbits w with
  | .command op operand => { s with inbox := .command op operand :: s.inbox }
  | .wire b rest =>
    { s with inbox := .wire b rest :: s.inbox, lc := .ready, cfg := s.cfg.load Definition.default }

end Sys2Proof.Machine
end

