-- ==== Sys2Proof/Machine/Bank.lean ====
section
/-! DEFINITION. Several instances of the block (R39, R239): each has its own state, and a step of one is a step of that one
alone (log 15). -/

namespace Sys2Proof.Machine

/-- Instance `k` of the bank steps. A number that names no instance changes nothing. -/
def bankStep (k : Nat) (bank : List State) : Host.Outcome (List State) Fault Refusal :=
  match bank[k]? with
  | none => .next bank
  | some s =>
    match step s with
    | .next t    => .next (bank.set k t)
    | .fault f   => .fault f
    | .refused r => .refused r

end Sys2Proof.Machine
end

