-- ==== Sys2Proof/Safety.lean ====
section
/-! DEFINITION. What a legal state is, what a run of instructions is, and the terms the statements are written in. -/

namespace Sys2Proof.Machine

/-- The legal states: what reset leaves and every step keeps. -/
structure State.Inv (s : State) : Prop where
  /-- The parameters are in range (R9, R10). -/
  params_legal : s.params.Legal
  /-- `ACC` is in canonical form. -/
  acc_wf : Memory.wf s.acc
  /-- `ACC` has `CAP` bytes (R31). -/
  acc_range : ∀ p ∈ s.acc, p.1 < s.params.cap
  /-- `0 <= WC <= CAP` (R32). -/
  wc_le_cap : s.wc ≤ s.params.cap
  /-- Every byte below `WC` was written (R34). -/
  pending_written : ∀ a < s.wc, (s.acc.read a).isSome
  /-- The table has `NRULES_MAX` entries (R10, R28). -/
  table_length : s.cfg.table.length = s.params.nRulesMax
  /-- `CFG_NRULES` is at most `NRULES_MAX` (R20). -/
  nRules_le : s.cfg.nRules.toNat ≤ s.params.nRulesMax
  /-- `WF` whenever `READY` (R29). -/
  ready_wf : s.lc = .ready → s.cfg.WF s.params.nRulesMax
  /-- `WC = 0` until CONFIGURE succeeds (R254). -/
  unconfigured_wc : s.lc = .unconfigured → s.wc = 0
  /-- The pending frame holds no terminator (R171). -/
  pending_no_end : s.lc = .ready → ∀ a < s.wc, s.acc.read a ≠ some s.cfg.endByte

/-- The block can step. -/
def State.Steps (s : State) : Prop := ∃ t, step s = .next t

/-- Instructions one after another, to the first that stops. -/
def execAll : List Instr → State → Result
  | [], s => .next s
  | i :: is, s =>
    match exec i s with
    | .next t    => execAll is t
    | .fault f   => .fault f
    | .refused r => .refused r

/-- The events of the message port (R89): what FEED shows of the stream, in order. -/
def streamEvents (trace : List Event) : List Event :=
  trace.filter fun e => match e with
    | .msg _ | .malformed => true
    | .wire _ | .resp _ _ => false

/-- The responses (R83), in order. -/
def responses (trace : List Event) : List Event :=
  trace.filter fun e => match e with
    | .resp _ _ => true
    | .msg _ | .malformed | .wire _ => false

/-- The last event is a response with this status. -/
def State.RespondedWith (s : State) (st : Status) : Prop := ∃ data, s.trace.getLast? = some (.resp st data)

/-- The same state to every observer: all but the bytes of `ACC` at and above `WC`, which no rule reads (R34, R184). -/
structure State.SameObs (s t : State) : Prop where
  params : s.params = t.params
  lc : s.lc = t.lc
  cfg : s.cfg = t.cfg
  wc : s.wc = t.wc
  pending : s.pending = t.pending
  malformedCount : s.malformedCount = t.malformedCount
  overflowCount : s.overflowCount = t.overflowCount
  inbox : s.inbox = t.inbox
  trace : s.trace = t.trace
  freeTick : s.freeTick = t.freeTick

/-- The registers a reset leaves as the spec says (R250). -/
def State.IsResetState (s : State) : Prop :=
  s.lc = .unconfigured ∧ s.wc = 0 ∧ s.malformedCount = 0 ∧ s.overflowCount = 0

/-- Every field but `trace` is the same: what a command that writes no state leaves (R7). -/
def State.OnlyTrace (s t : State) (events : List Event) : Prop := t = { s with trace := s.trace ++ events }

/-- What FEED leaves alone: the parameters, `LC`, the configuration registers (R180), and the model's own queue and counter. -/
def State.SameBesideFeed (s t : State) : Prop :=
  t.params = s.params ∧ t.lc = s.lc ∧ t.cfg = s.cfg ∧ t.inbox = s.inbox ∧ t.freeTick = s.freeTick

/-- `ACC` after the bytes `bs` are stored at `a`: those bytes there, and every other byte as before. -/
def Memory.StoredAt (m m' : Memory) (a : Nat) (bs : List Byte) : Prop :=
  ∀ x, m'.read x = if a ≤ x ∧ x < a + bs.length then bs[x - a]? else m.read x

/-! ## The checks of a Protocol Definition, in the words of R102 to R104 -/

/-- The operand fails R102. -/
def OperandMalformed (op : List Byte) : Prop :=
  op.length < 8 ∨ op.length ≠ 8 + 3 * (op.getD 7 0).toNat ∨ (op.getD 0 0).extractLsb' 4 4 ≠ 0#4 ∨
    ∃ k < (op.getD 7 0).toNat, (op.getD (8 + 3 * k) 0).extractLsb' 2 6 ≠ 0#6

/-- `P_RULES = 1` and an entry lacks a field (R103). -/
def RuleFieldMissing (op : List Byte) : Prop :=
  (op.getD 0 0).getLsbD 3 = true ∧
    ∃ k < (op.getD 7 0).toNat, (op.getD (8 + 3 * k) 0).getLsbD 0 = false ∨ (op.getD (8 + 3 * k) 0).getLsbD 1 = false

/-- The definition a well-formed operand fills to (R101). -/
def filledDefinition (op : List Byte) : Definition :=
  { maxLen := if (op.getD 0 0).getLsbD 0 then
        BitVec.ofNat 32 ((op.getD 1 0).toNat + 256 * (op.getD 2 0).toNat + 65536 * (op.getD 3 0).toNat
          + 16777216 * (op.getD 4 0).toNat)
      else 256,
    endByte := if (op.getD 0 0).getLsbD 1 then op.getD 5 0 else 0xC0,
    escByte := if (op.getD 0 0).getLsbD 2 then op.getD 6 0 else 0xDB,
    rules := if (op.getD 0 0).getLsbD 3 then
        (List.range (op.getD 7 0).toNat).map fun k => { frag := op.getD (9 + 3 * k) 0, repl := op.getD (10 + 3 * k) 0 }
      else [{ frag := 0xC0, repl := 0xDC }, { frag := 0xDB, repl := 0xDD }] }

/-- The check of R104 with this code fails. -/
def Definition.Fails (nRulesMax : Nat) (d : Definition) : Nat → Prop
  | 0x03 => d.rules.length > nRulesMax
  | 0x04 => d.endByte = d.escByte
  | 0x05 => ∃ (i j : Nat) (ri rj : Rule), i < j ∧ d.rules[i]? = some ri ∧ d.rules[j]? = some rj ∧ ri.frag = rj.frag
  | 0x06 => ¬ ∃ r ∈ d.rules, r.frag = d.endByte
  | 0x07 => ¬ ∃ r ∈ d.rules, r.frag = d.escByte
  | 0x08 => ∃ (i j : Nat) (ri rj : Rule), i < j ∧ d.rules[i]? = some ri ∧ d.rules[j]? = some rj ∧ ri.repl = rj.repl
  | 0x09 => ∃ r ∈ d.rules, r.repl = d.endByte
  | _    => False

/-- CONFIGURE's check with this code fails on the operand (R102 to R104). -/
def OperandFails (nRulesMax : Nat) (op : List Byte) (code : Nat) : Prop :=
  (code = 0x01 ∧ OperandMalformed op) ∨ (code = 0x02 ∧ ¬ OperandMalformed op ∧ RuleFieldMissing op) ∨
    (¬ OperandMalformed op ∧ ¬ RuleFieldMissing op ∧ (filledDefinition op).Fails nRulesMax code)

/-! ## Readouts and the escaped form, in the words of R86, R87 and R130 -/

/-- `le32` of a number (00_scope.md section 5): byte `k` is its bits `8k+7 … 8k`. -/
def littleEndian (n : Nat) : List Byte := (List.range 4).map fun k => BitVec.ofNat 8 (n / 256 ^ k)

/-- READ_STATUS's bytes (R86). -/
def statusReadout (s : State) : List Byte :=
  [if s.lc = .ready then 0x01 else 0x00] ++ littleEndian s.wc ++ littleEndian s.malformedCount.toNat
    ++ littleEndian s.overflowCount.toNat

/-- READ_CONFIG's bytes (R87). -/
def configReadout (c : CfgRegs) : List Byte :=
  [0x0F] ++ littleEndian c.maxLen.toNat ++ [c.endByte, c.escByte, c.nRules]
    ++ (List.range c.nRules.toNat).flatMap fun k => [0x03, (c.rule k).frag, (c.rule k).repl]

/-- What the encoder writes for a byte (R130): the pair of the first rule that escapes it, or the byte itself. -/
def escapedForm (c : CfgRegs) (b : Byte) : List Byte :=
  match c.rules.find? fun r => r.frag == b with
  | some r => [c.escByte, r.repl]
  | none   => [b]

/-! ## Wire symbols -/

/-- A symbol of a body (R72): a literal, or the escape pair of rule `k`. -/
inductive Symbol where
  | literal (b : Byte)
  | pair (k : Nat)
  deriving DecidableEq, Repr

/-- The symbol's bytes (R72). -/
def Symbol.bytes (c : CfgRegs) : Symbol → List Byte
  | .literal b => [b]
  | .pair k    => [c.escByte, (c.rule k).repl]

/-- The payload byte it stands for (R72). -/
def Symbol.standsFor (c : CfgRegs) : Symbol → Byte
  | .literal b => b
  | .pair k    => (c.rule k).frag

/-- A literal does not begin a pair, and a pair's second byte selects its rule (R77, R110). -/
def Symbol.Legal (c : CfgRegs) : Symbol → Prop
  | .literal b => b ≠ c.escByte
  | .pair k    => replRule c (c.rule k).repl = some k

/-- What comes where a symbol should begin and makes the body malformed (R76). -/
def MalformedAt (c : CfgRegs) (f : List Byte) : Prop :=
  f = [c.escByte] ∨ ∃ x g, f = c.escByte :: x :: g ∧ replRule c x = none

/-- The bytes of a wire symbol but the terminator (R72 to R76), none for the other rows. -/
def wireSymbolBytes (c : CfgRegs) : Instr → Option (List Byte)
  | .wireLiteral b         => some [b]
  | .wireEscPair repl      => some [c.escByte, repl]
  | .wireEscEndDefault     => some [0xDB, 0xDC]
  | .wireEscEscDefault     => some [0xDB, 0xDD]
  | .wireInvalidEscLast    => some [c.escByte]
  | .wireInvalidEscOther x => some [c.escByte, x]
  | .wireEnd | .configure _ | .encode _ | .send _ | .decode _ | .feed _ | .readStatus _ | .readConfig _ | .reset _
  | .reserved _ _          => none

/-- The bytes of every `WIRE` event, in order: the outbound wire (R189). -/
def wireOutput (trace : List Event) : List Byte :=
  trace.flatMap fun e => match e with
    | .wire s => s
    | .msg _ | .malformed | .resp _ _ => []

/-- The instructions whose meaning is FEED of some bytes. -/
def isFeed : Instr → Bool
  | .feed _ | .wireLiteral _ | .wireEnd | .wireEscPair _ | .wireEscEndDefault | .wireEscEscDefault | .wireInvalidEscLast
  | .wireInvalidEscOther _ => true
  | .configure _ | .encode _ | .send _ | .decode _ | .readStatus _ | .readConfig _ | .reset _ | .reserved _ _ => false

end Sys2Proof.Machine
end

