-- ==== Sys2Proof/Certificates/Slice0/Obligations.lean ====
section
/-! DEFINITION. The statements for the provers. Each docstring names the rule of spec/ it formalises. The statements' own terms
are in Safety.lean. A statement about states that no run reaches carries the part of the invariant it needs as a premise. -/

open Sys2Proof Sys2Proof.Machine Sys2Proof.Config Host

/-! ## Reset, the invariant, the step -/

/-- R250, R202: power-on and RESET leave `LC = UNCONFIGURED`, `WC = 0` and both counters 0. Power-on emits no event, and RESET,
allowed in both lifecycle states, none but its response. Nothing is said of the configuration registers and of `ACC`:
they are unspecified. -/
def Obligations.PowerOnAndResetClearTheBlock : Prop :=
  (∀ p : Params, (State.resetWith p).IsResetState ∧ (State.resetWith p).trace = []) ∧
  ∀ (s : State) (operand : List Byte), ∃ t, exec (.reset operand) s = .next t ∧ t.IsResetState ∧
    t.trace = s.trace ++ [.resp .ok []] ∧ t.params = s.params ∧ t.inbox = s.inbox

/-- The invariant holds at power-on, for every legal choice of the parameters. Its clauses on the rule table rest on the zeros that are
the model's choice for the unspecified configuration registers (log 4). -/
def Obligations.PowerOnStateIsLegal : Prop := ∀ p : Params, p.Legal → (State.resetWith p).Inv

/-- Every step keeps the invariant: `WC <= CAP` (R32, R183), every byte below `WC` written (R34), `WF` whenever `READY` (R29), no
terminator in the pending frame (R171), `WC = 0` until CONFIGURE succeeds (R254), and `ACC` in canonical form within `CAP` bytes. After
RESET the clauses on the rule table rest on the limits the model puts on its free values (log 5). -/
def Obligations.StepKeepsLegalStates : Prop := ∀ s t : State, s.Inv → step s = .next t → t.Inv

/-- R265: in a legal state every step completes; the block never hangs, faults or refuses. -/
def Obligations.EveryStepCompletes : Prop := ∀ s : State, s.Inv → s.Steps

/-- R6: a step runs the instruction that the oldest input holds, and takes it off the queue; of a run of wire bytes
it takes the first symbol (log 8). With an empty queue the block waits (R252). -/
def Obligations.StepRunsTheDecodedInstruction : Prop :=
  (∀ (s : State) (i : Instr) (queue : List Input), i.wfUnder s.lc s.cfg = true → s.inbox = encodeInput s.cfg i :: queue →
    step s = exec i { s with inbox := queue }) ∧
  (∀ (s : State) (op : Byte) (operand : List Byte) (queue : List Input), s.inbox = .command op operand :: queue →
    step s = exec (decodeCommand op operand) { s with inbox := queue }) ∧
  (∀ (s : State) (b : Byte) (rest : List Byte) (queue : List Input), s.inbox = .wire b rest :: queue →
    step s = exec (decodeWire s.lc s.cfg b rest).1
      { s with inbox := (wireInput (decodeWire s.lc s.cfg b rest).2).toList ++ queue }) ∧
  (∀ s : State, s.inbox = [] → step s = .next s)

/-! ## Encoding of the instructions -/

/-- R82, R74 to R76: words written out from the opcode map and the default escape table, and one escape pair under another
definition, decode to their instructions. How a run of wire bytes is cut into symbols is the model's choice (log 8). -/
def Obligations.OpcodeMapWordsDecode : Prop :=
  decodeCommandBytes [0x01, 0xAA] = .ok (.configure [0xAA]) ∧ decodeCommandBytes [0x02, 0x01, 0xC0] = .ok (.encode [0x01, 0xC0]) ∧
  decodeCommandBytes [0x03] = .ok (.send []) ∧ decodeCommandBytes [0x04, 0xDB] = .ok (.decode [0xDB]) ∧
  decodeCommandBytes [0x05, 0xC0] = .ok (.feed [0xC0]) ∧ decodeCommandBytes [0x06] = .ok (.readStatus []) ∧
  decodeCommandBytes [0x07] = .ok (.readConfig []) ∧ decodeCommandBytes [0x08] = .ok (.reset []) ∧
  decodeCommandBytes [0x00] = .ok (.reserved 0x00 []) ∧ decodeCommandBytes [0x09, 0x01] = .ok (.reserved 0x09 [0x01]) ∧
  decodeCommandBytes [0xFF] = .ok (.reserved 0xFF []) ∧ decodeCommandBytes [] = .error .noOpcode ∧
  decodeInput .ready defaultRegs (.wire 0x41 []) = (.wireLiteral 0x41, none) ∧
  decodeInput .ready defaultRegs (.wire 0xC0 []) = (.wireEnd, none) ∧
  decodeInput .ready defaultRegs (.wire 0xDB [0xDC]) = (.wireEscEndDefault, none) ∧
  decodeInput .ready defaultRegs (.wire 0xDB [0xDD]) = (.wireEscEscDefault, none) ∧
  decodeInput .ready defaultRegs (.wire 0xDB [0xC0]) = (.wireInvalidEscLast, some (.wire 0xC0 [])) ∧
  decodeInput .ready defaultRegs (.wire 0xDB [0xDB]) = (.wireInvalidEscOther 0xDB, none) ∧
  decodeInput .ready
    (defaultRegs.load { maxLen := 256, endByte := 0x7E, escByte := 0x7D,
                        rules := [{ frag := 0x7E, repl := 0x5E }, { frag := 0x7D, repl := 0x5D }] })
    (.wire 0x7D [0x5E]) = (.wireEscPair 0x5E, none)

/-- Decoding the encoding of a well-formed instruction gives it back, every operand included, for every row of the opcode
table and under every configuration. -/
def Obligations.DecodeOfEncodeIsTheInstruction : Prop :=
  ∀ (lc : Lifecycle) (c : CfgRegs) (i : Instr), i.wfUnder lc c = true → decodeInput lc c (encodeInput c i) = (i, none)

/-- The other direction: what the decoder reads is well formed, and its encoding with what is left is the input, byte for byte. -/
def Obligations.DecoderDropsNoByte : Prop :=
  ∀ (lc : Lifecycle) (c : CfgRegs) (input : Input),
    (decodeInput lc c input).1.wfUnder lc c = true ∧
    inputBytes (encodeInput c (decodeInput lc c input).1) ++ ((decodeInput lc c input).2.map inputBytes).getD [] = inputBytes input

/-! ## CONFIGURE -/

/-- R101: an operand that passes every check configures the block with each field from the operand where its `PRESENT`
bit is 1 and from the defaults otherwise; the rule list is one field. Everything else is unchanged. -/
def Obligations.ConfigureFillsUnsetFieldsFromDefaults : Prop :=
  ∀ (s : State) (op : List Byte), s.params.Legal → s.lc = .unconfigured →
    (∀ code, ¬ OperandFails s.params.nRulesMax op code) →
    ∃ t, exec (.configure op) s = .next t ∧
      t = { s with lc := .ready, cfg := t.cfg, trace := s.trace ++ [.resp .ok []] } ∧
      t.cfg.maxLen = (filledDefinition op).maxLen ∧ t.cfg.endByte = (filledDefinition op).endByte ∧
      t.cfg.escByte = (filledDefinition op).escByte ∧ t.cfg.nRules.toNat = (filledDefinition op).rules.length ∧
      ∀ k < (filledDefinition op).rules.length, (filledDefinition op).rules[k]? = some (t.cfg.rule k)

/-- R102 to R105, R223: when checks fail, CONFIGURE reports the lowest reason code and writes nothing. -/
def Obligations.ConfigureReportsTheLowestReason : Prop :=
  ∀ (s : State) (op : List Byte) (code : Nat), s.lc = .unconfigured → OperandFails s.params.nRulesMax op code →
    (∀ c < code, ¬ OperandFails s.params.nRulesMax op c) →
    exec (.configure op) s = .next { s with trace := s.trace ++ [.resp .configError [BitVec.ofNat 8 code]] }

/-- R100, R85, R91: `CONFIGURE DEFAULT`, eight zero bytes, gives the default Protocol Definition. -/
def Obligations.ConfigureDefaultLoadsTheDefaults : Prop :=
  ∀ s : State, s.lc = .unconfigured → 2 ≤ s.params.nRulesMax →
    ∃ t, exec (.configure [0, 0, 0, 0, 0, 0, 0, 0]) s = .next t ∧
      t = { s with lc := .ready, cfg := t.cfg, trace := s.trace ++ [.resp .ok []] } ∧
      t.cfg.maxLen = 256 ∧ t.cfg.endByte = 0xC0 ∧ t.cfg.escByte = 0xDB ∧ t.cfg.nRules = 2 ∧
      t.cfg.rule 0 = { frag := 0xC0, repl := 0xDC } ∧ t.cfg.rule 1 = { frag := 0xDB, repl := 0xDD }

/-- R107: a second CONFIGURE is refused and changes nothing, and in `READY` no instruction but RESET changes a configuration
register or leaves `READY`. -/
def Obligations.ConfigurationIsImmutableUntilReset : Prop :=
  (∀ (s : State) (op : List Byte), s.lc = .ready →
    exec (.configure op) s = .next { s with trace := s.trace ++ [.resp .alreadyConfigured []] }) ∧
  ∀ (i : Instr) (s t : State), s.lc = .ready → (∀ operand, i ≠ .reset operand) → exec i s = .next t →
    t.cfg = s.cfg ∧ t.lc = .ready

/-- R90: the operand a record expands to is well formed, and fills to the definition the record stands for. -/
def Obligations.RecordNotationExpandsToItsDefinition : Prop :=
  ∀ r : ConfigRecord, (r.rules.getD []).length ≤ 255 →
    ¬ OperandMalformed r.operand ∧ ¬ RuleFieldMissing r.operand ∧ filledDefinition r.operand = r.filled

/-- R109: with `WF`, `2 <= CFG_NRULES <= 255`, and no byte is the `FRAG`, or the `REPL`, of two rules. -/
def Obligations.WellFormedRulesAreUnique : Prop :=
  ∀ s : State, s.Inv → s.lc = .ready →
    2 ≤ s.cfg.nRules.toNat ∧ s.cfg.nRules.toNat ≤ 255 ∧
    ∀ j k, j < s.cfg.nRules.toNat → k < s.cfg.nRules.toNat →
      ((s.cfg.rule j).frag = (s.cfg.rule k).frag → j = k) ∧ ((s.cfg.rule j).repl = (s.cfg.rule k).repl → j = k)

/-! ## Control commands and the gate -/

/-- R200, R86: READ_STATUS answers its 13 bytes in every state, and changes nothing. -/
def Obligations.ReadStatusAnswersTheRegisters : Prop :=
  ∀ (s : State) (operand : List Byte),
    exec (.readStatus operand) s = .next { s with trace := s.trace ++ [.resp .ok (statusReadout s)] } ∧
    (statusReadout s).length = 13

/-- R201: READ_CONFIG is refused while `UNCONFIGURED`; in `READY` it answers the configuration registers. It changes nothing. -/
def Obligations.ReadConfigAnswersTheDefinition : Prop :=
  ∀ (s : State) (operand : List Byte),
    (s.lc = .unconfigured →
      exec (.readConfig operand) s = .next { s with trace := s.trace ++ [.resp .notConfigured []] }) ∧
    (s.lc = .ready → s.cfg.nRules.toNat ≤ s.cfg.table.length →
      exec (.readConfig operand) s = .next { s with trace := s.trace ++ [.resp .ok (configReadout s.cfg)] })

/-- R87: READ_CONFIG's data is `8 + 3*CFG_NRULES` bytes, and given as a CONFIGURE operand after reset it reproduces the
same definition. -/
def Obligations.ReadConfigDataReconfigures : Prop :=
  ∀ (s u : State) (operand : List Byte), s.Inv → s.lc = .ready → u.lc = .unconfigured → u.params = s.params →
    exec (.readConfig operand) s = .next { s with trace := s.trace ++ [.resp .ok (configReadout s.cfg)] } ∧
    (configReadout s.cfg).length = 8 + 3 * s.cfg.nRules.toNat ∧
    ∃ v, exec (.configure (configReadout s.cfg)) u = .next v ∧ v.lc = .ready ∧
      v.trace = u.trace ++ [.resp .ok []] ∧ v.cfg.definition = s.cfg.definition

/-- R205: READ_STATUS, READ_CONFIG and RESET do not read their operand. -/
def Obligations.ControlOperandsAreIgnored : Prop :=
  ∀ (s : State) (a b : List Byte), exec (.readStatus a) s = exec (.readStatus b) s ∧
    exec (.readConfig a) s = exec (.readConfig b) s ∧ exec (.reset a) s = exec (.reset b) s

/-- R203: a reserved opcode, `0x00` or `0x09`–`0xFF`, changes no state, emits no port event and answers ILLEGAL_COMMAND, in
both lifecycle states. -/
def Obligations.ReservedOpcodesAnswerIllegalCommand : Prop :=
  ∀ (s : State) (op : Byte) (operand : List Byte), op.toNat = 0 ∨ 9 ≤ op.toNat →
    decodeCommand op operand = .reserved op operand ∧
    exec (.reserved op operand) s = .next { s with trace := s.trace ++ [.resp .illegalCommand []] }

/-- R226: while `UNCONFIGURED`, ENCODE, SEND, DECODE, FEED and READ_CONFIG answer NOT_CONFIGURED and write nothing; so do the wire
symbols, which are FEEDs (log 7). In `READY`, CONFIGURE answers ALREADY_CONFIGURED and writes nothing. -/
def Obligations.LifecycleGateRefusesWithoutWriting : Prop :=
  (∀ (s : State) (i : Instr), s.lc = .unconfigured →
    (isFeed i = true ∨ (∃ p, i = .encode p ∨ i = .send p ∨ i = .decode p ∨ i = .readConfig p)) →
    exec i s = .next { s with trace := s.trace ++ [.resp .notConfigured []] }) ∧
  ∀ (s : State) (op : List Byte), s.lc = .ready →
    exec (.configure op) s = .next { s with trace := s.trace ++ [.resp .alreadyConfigured []] }

/-! ## ENCODE and SEND -/

/-- R130, R134: ENCODE answers the payload with each byte in its escaped form, in order, and changes nothing. -/
def Obligations.EncodeAnswersTheEscapedPayload : Prop :=
  ∀ (s : State) (p : List Byte),
    (s.lc = .unconfigured → exec (.encode p) s = .next { s with trace := s.trace ++ [.resp .notConfigured []] }) ∧
    (s.lc = .ready → exec (.encode p) s =
      .next { s with trace := s.trace ++ [.resp .ok (p.flatMap (escapedForm s.cfg))] })

/-- R135: SEND writes one whole frame, the escaped payload and one terminator, to the outbound sink, and changes nothing. -/
def Obligations.SendEmitsOneWholeFrame : Prop :=
  ∀ (s : State) (p : List Byte),
    (s.lc = .unconfigured → exec (.send p) s = .next { s with trace := s.trace ++ [.resp .notConfigured []] }) ∧
    (s.lc = .ready → exec (.send p) s =
      .next { s with trace := s.trace ++ [.wire (p.flatMap (escapedForm s.cfg) ++ [s.cfg.endByte]), .resp .ok []] })

/-- R136: the escaped payload is as long as the payload and one byte more for each byte that a rule escapes. -/
def Obligations.EncodeLengthLaw : Prop :=
  ∀ (c : CfgRegs) (p : List Byte),
    (slipEncode c p).length = p.length + (p.filter fun b => (fragRule c b).isSome).length

/-- R137, its clause on the terminator: no escaped payload holds `CFG_END`, so a frame holds one, its last byte. The rule's
clause on `CFG_ESC` is `EscapeByteBelongsToItsPair`. -/
def Obligations.TerminatorOnlyEndsTheFrame : Prop :=
  ∀ (n : Nat) (c : CfgRegs) (p : List Byte), c.WF n →
    c.endByte ∉ slipEncode c p ∧ (frameOf c p).count c.endByte = 1 ∧ (frameOf c p).getLast? = some c.endByte

/-- R137, its clause on `CFG_ESC`: every `CFG_ESC` of an escaped payload is the first byte of the escape pair of a payload byte. The
clause holds as it stands when no rule has `REPL = CFG_ESC`. R104 allows such a rule ("They also allow these …: `repl = esc`"), and
vector C-25 has its pair be `[CFG_ESC, CFG_ESC]`; then a `CFG_ESC` can also be that pair's second byte, and nothing else (log 16). -/
def Obligations.EscapeByteBelongsToItsPair : Prop :=
  ∀ (n : Nat) (c : CfgRegs) (p : List Byte) (i : Nat), c.WF n → (slipEncode c p)[i]? = some c.escByte →
    ∃ (pre post : List Byte) (b : Byte) (k : Nat), p = pre ++ b :: post ∧ fragRule c b = some k ∧
      slipEncode c p = slipEncode c pre ++ [c.escByte, (c.rule k).repl] ++ slipEncode c post ∧
      (i = (slipEncode c pre).length ∨ i = (slipEncode c pre).length + 1 ∧ (c.rule k).repl = c.escByte) ∧
      (replRule c c.escByte = none → i = (slipEncode c pre).length)

/-- R72, and R137 as its derivation reads it, under every definition `WF` accepts, one with `REPL = CFG_ESC` among them: an escaped
payload is a sequence of legal symbols, one for each payload byte and standing for it; a literal is neither `CFG_END` nor
`CFG_ESC`, a pair holds no `CFG_END`, and a symbol begins with `CFG_ESC` exactly when it is a pair (log 16). -/
def Obligations.EscapedPayloadIsItsSymbols : Prop :=
  ∀ (n : Nat) (c : CfgRegs) (p : List Byte), c.WF n →
    ∃ symbols : List Symbol, symbols.map (Symbol.standsFor c) = p ∧ slipEncode c p = symbols.flatMap (Symbol.bytes c) ∧
      ∀ y ∈ symbols, y.Legal c ∧ c.endByte ∉ y.bytes c ∧
        (fragRule c (y.standsFor c) = none ↔ ∃ b, y = .literal b) ∧ ((y.bytes c).head? = some c.escByte ↔ ∃ k, y = .pair k)

/-- R138, R156: the terminator and the escape byte are escaped with their rule's replacement, and decoding the pair gives the
byte back; under the defaults the pairs are `[DB DC]` and `[DB DD]`. -/
def Obligations.ReservedBytesAreEscaped : Prop :=
  (∀ (n : Nat) (c : CfgRegs) (b : Byte), c.WF n → b = c.endByte ∨ b = c.escByte →
    ∃ k, fragRule c b = some k ∧ slipEncode c [b] = [c.escByte, (c.rule k).repl] ∧
      slipDecode c [c.escByte, (c.rule k).repl] = some [b]) ∧
  slipEncode defaultRegs [0xC0] = [0xDB, 0xDC] ∧ slipEncode defaultRegs [0xDB] = [0xDB, 0xDD]

/-- R139: `encode` distributes over concatenation and is injective. -/
def Obligations.EncodeConcatenatesAndIsInjective : Prop :=
  (∀ (c : CfgRegs) (p q : List Byte), slipEncode c (p ++ q) = slipEncode c p ++ slipEncode c q) ∧
  ∀ (n : Nat) (c : CfgRegs) (p q : List Byte), c.WF n → slipEncode c p = slipEncode c q → p = q

/-- R155: for every payload, DECODE of what ENCODE answers gives the payload back. -/
def Obligations.DecodeUndoesEncode : Prop :=
  ∀ (n : Nat) (s : State) (p : List Byte), s.lc = .ready → s.cfg.WF n →
    ∃ e, exec (.encode p) s = .next { s with trace := s.trace ++ [.resp .ok e] } ∧
      exec (.decode e) s = .next { s with trace := s.trace ++ [.resp .ok p] }

/-! ## DECODE -/

/-- R154, R150, R152: DECODE answers, for a body made of symbols, the bytes they stand for; for a body that goes wrong after
some symbols, MALFORMED_FRAME and no data; while `UNCONFIGURED`, NOT_CONFIGURED. It changes nothing. -/
def Obligations.DecodeAnswersWhatTheSymbolsStandFor : Prop :=
  ∀ (s : State) (symbols : List Symbol),
    (s.lc = .unconfigured → ∀ f, exec (.decode f) s = .next { s with trace := s.trace ++ [.resp .notConfigured []] }) ∧
    (s.lc = .ready → (∀ y ∈ symbols, y.Legal s.cfg) →
      exec (.decode (symbols.flatMap (Symbol.bytes s.cfg))) s =
        .next { s with trace := s.trace ++ [.resp .ok (symbols.map (Symbol.standsFor s.cfg))] } ∧
      ∀ tail, MalformedAt s.cfg tail → exec (.decode (symbols.flatMap (Symbol.bytes s.cfg) ++ tail)) s =
        .next { s with trace := s.trace ++ [.resp .malformedFrame []] })

/-- R151: a body is malformed exactly when, after some symbols, it has an escape byte that is its last byte or is followed by no
replacement. -/
def Obligations.BodyIsMalformedExactlyAtABadEscape : Prop :=
  ∀ (c : CfgRegs) (f : List Byte), slipDecode c f = none ↔
    ∃ (symbols : List Symbol) (tail : List Byte), (∀ y ∈ symbols, y.Legal c) ∧ MalformedAt c tail ∧
      f = symbols.flatMap (Symbol.bytes c) ++ tail

/-- R153, R182: a message is no longer than its body, and at least half as long. -/
def Obligations.MessageLengthIsBounded : Prop :=
  ∀ (c : CfgRegs) (f m : List Byte), slipDecode c f = some m → m.length ≤ f.length ∧ f.length ≤ 2 * m.length

/-! ## FEED -/

/-- R172: with no terminator in the chunk and room for it, the chunk is stored at `WC`, `WC` advances by its length, and FEED
answers OK with no message. Everything else is unchanged. -/
def Obligations.FeedWithoutTerminatorWaits : Prop :=
  ∀ (s : State) (chunk : List Byte), s.lc = .ready → Memory.wf s.acc → s.cfg.endByte ∉ chunk →
    s.wc + chunk.length ≤ s.params.cap →
    ∃ t, exec (.feed chunk) s = .next t ∧
      t = { s with acc := t.acc, wc := s.wc + chunk.length, trace := s.trace ++ [.resp .ok []] } ∧
      Memory.StoredAt s.acc t.acc s.wc chunk

/-- R175, R176, R177, R178: a terminator after a segment that fits completes the frame. A non-empty frame is
decoded, and its message emitted, or it is counted as malformed, with the `MALFORMED` event under `SURFACE`; an empty frame leaves no
trace. `WC` is 0 after each, and no byte of `ACC` changes but those of the segment. -/
def Obligations.FeedTerminatorCompletesTheFrame : Prop :=
  ∀ (s : State) (seg p : List Byte), s.lc = .ready → Memory.wf s.acc → s.cfg.endByte ∉ seg →
    s.wc + seg.length ≤ s.params.cap → s.pending = some p →
    ∃ t, exec (.feed (seg ++ [s.cfg.endByte])) s = .next t ∧ s.SameBesideFeed t ∧ t.wc = 0 ∧
      t.overflowCount = s.overflowCount ∧ Memory.StoredAt s.acc t.acc s.wc seg ∧
      (p ++ seg = [] → t.malformedCount = s.malformedCount ∧ t.trace = s.trace ++ [.resp .ok []]) ∧
      (p ++ seg ≠ [] → ∀ m, slipDecode s.cfg (p ++ seg) = some m →
        t.malformedCount = s.malformedCount ∧ t.trace = s.trace ++ [.msg m, .resp .ok []]) ∧
      (p ++ seg ≠ [] → slipDecode s.cfg (p ++ seg) = none →
        t.malformedCount = s.malformedCount + 1 ∧
        t.trace = s.trace ++ (if s.params.policy = .surface then [.malformed] else []) ++ [.resp .ok []])

/-- R179: after a terminator FEED goes on with what is left of the chunk, as if it were fed next: FEED of `pre ++ rest`,
where `pre` ends in a terminator and is fed without an overflow, is FEED of `pre`, without its response, and then FEED of `rest`. -/
def Obligations.FeedGoesOnAfterATerminator : Prop :=
  ∀ (s u : State) (pre rest : List Byte) (trace : List Event), s.lc = .ready → pre.getLast? = some s.cfg.endByte →
    rest ≠ [] → exec (.feed pre) s = .next u → u.trace = trace ++ [.resp .ok []] →
    exec (.feed (pre ++ rest)) s = exec (.feed rest) { u with trace := trace }

/-- R174: when a segment does not fit, at the chunk's start or after frames that were fed without an overflow, none of it
is written, the pending frame is discarded, the overflow is counted, the rest of the chunk is discarded, and FEED answers
BUFFER_OVERFLOW. What came before stands. That the rest of the chunk is discarded is the spec's own inference: "Step 4 is the spec's
reading of "fatal to the call"" (R174; D14 of 92_eei_decisions.md sets aside resuming at the chunk's next terminator), and
this statement relies on it. -/
def Obligations.FeedOverflowDiscardsFrameAndRest : Prop :=
  ∀ (s u : State) (pre seg rest : List Byte), s.lc = .ready →
    (pre = [] ∧ u = s ∨ pre.getLast? = some s.cfg.endByte ∧
      exec (.feed pre) s = .next { u with trace := u.trace ++ [.resp .ok []] }) →
    seg ++ rest ≠ [] → s.cfg.endByte ∉ seg → (rest = [] ∨ rest.head? = some s.cfg.endByte) →
    u.wc + seg.length > s.params.cap →
    exec (.feed (pre ++ seg ++ rest)) s = .next
      { u with wc := 0, overflowCount := u.overflowCount + 1, trace := u.trace ++ [.resp .bufferOverflow []] }

/-- R183, R265: in a legal `READY` state FEED completes, whatever the chunk; it writes only `ACC`, `WC` and the
counters, and leaves `WC <= CAP`. -/
def Obligations.FeedCompletesWithinTheBuffer : Prop :=
  ∀ (s : State) (chunk : List Byte), s.Inv → s.lc = .ready →
    ∃ t, exec (.feed chunk) s = .next t ∧ s.SameBesideFeed t ∧ t.wc ≤ s.params.cap ∧ t.pending.isSome

/-- R182: FEED emits at most one event for each terminator of the chunk, each a `MALFORMED` or a message of at least one
byte, then its response. -/
def Obligations.FeedEmitsAtMostOneEventPerTerminator : Prop :=
  ∀ (s t : State) (chunk : List Byte), s.lc = .ready → exec (.feed chunk) s = .next t →
    ∃ (events : List Event) (st : Status), t.trace = s.trace ++ events ++ [.resp st []] ∧
      events.length ≤ chunk.count s.cfg.endByte ∧
      ∀ e ∈ events, (e = .malformed ∧ s.params.policy = .surface) ∨ ∃ m, e = .msg m ∧ 1 ≤ m.length

/-- R231, R225: one FEED raises at most one overflow: it answers OK and the counter stays, or BUFFER_OVERFLOW and the
counter goes up by one with `WC = 0`. -/
def Obligations.FeedOverflowsAtMostOnce : Prop :=
  ∀ (s t : State) (chunk : List Byte), s.lc = .ready → exec (.feed chunk) s = .next t →
    (t.RespondedWith .ok ∧ t.overflowCount = s.overflowCount) ∨
    (t.RespondedWith .bufferOverflow ∧ t.overflowCount = s.overflowCount + 1 ∧ t.wc = 0)

/-- R187: from an empty buffer, a chunk of any length whose frames and tail each fit is fed without an overflow. -/
def Obligations.LongChunkOfShortFramesIsFedInFull : Prop :=
  ∀ (s : State) (frames : List (List Byte)) (tail : List Byte), s.Inv → s.lc = .ready → s.wc = 0 →
    (∀ f ∈ tail :: frames, s.cfg.endByte ∉ f ∧ f.length ≤ s.params.cap) →
    ∃ t, exec (.feed (frames.flatMap (fun f => f ++ [s.cfg.endByte]) ++ tail)) s = .next t ∧ t.RespondedWith .ok ∧
      t.overflowCount = s.overflowCount ∧ t.pending = some tail

/-- R188, R257: a non-empty payload of at most half the capacity, sent as a frame, arrives as its message. -/
def Obligations.HalfCapacityPayloadArrives : Prop :=
  ∀ (s : State) (p : List Byte), s.Inv → s.lc = .ready → s.wc = 0 → 1 ≤ p.length → 2 * p.length ≤ s.params.cap →
    ∃ t, exec (.feed (p.flatMap (escapedForm s.cfg) ++ [s.cfg.endByte])) s = .next t ∧
      t.trace = s.trace ++ [.msg p, .resp .ok []] ∧ t.wc = 0

/-- R184: FEED and FEED done one byte at a time give the same events, status, `WC`, counters and pending frame. -/
def Obligations.FeedIsByteSerial : Prop :=
  ∀ (s : State) (chunk : List Byte), s.Inv →
    ∃ t u, exec (.feed chunk) s = .next t ∧ feedSerial chunk s = .next u ∧ t.SameObs u

/-- R185: where the stream is split into chunks makes no difference, if no overflow occurs. -/
def Obligations.ChunkBoundariesMakeNoDifference : Prop :=
  ∀ (s t u v : State) (a b : List Byte), s.Inv → s.lc = .ready →
    exec (.feed a) s = .next t → exec (.feed b) t = .next u → exec (.feed (a ++ b)) s = .next v →
    ¬ t.RespondedWith .bufferOverflow → ¬ u.RespondedWith .bufferOverflow → ¬ v.RespondedWith .bufferOverflow →
    streamEvents u.trace = streamEvents v.trace ∧ u.wc = v.wc ∧ u.pending = v.pending ∧
      u.malformedCount = v.malformedCount ∧ u.overflowCount = v.overflowCount

/-- R189: what SENDs of non-empty payloads write on the wire, fed in any chunks to a block with the same configuration and an
empty buffer whose capacity each frame fits, arrives as exactly those messages, in order, and leaves `WC = 0`. -/
def Obligations.SentPayloadsArriveInOrder : Prop :=
  ∀ (sender s : State) (payloads : List (List Byte)), s.Inv → s.lc = .ready → s.wc = 0 →
    sender.lc = .ready → sender.cfg = s.cfg →
    (∀ p ∈ payloads, 1 ≤ p.length ∧ (slipEncode s.cfg p).length ≤ s.params.cap) →
    ∃ (u : State) (w : List Byte), execAll (payloads.map .send) sender = .next u ∧
      wireOutput u.trace = wireOutput sender.trace ++ w ∧
      ∀ chunks : List (List Byte), chunks.flatten = w →
        ∃ t, execAll (chunks.map .feed) s = .next t ∧ t.wc = 0 ∧
          streamEvents t.trace = streamEvents s.trace ++ payloads.map .msg

/-! ## Wire symbols -/

/-- R8, R170: a wire symbol reaches the block as the chunk of one FEED, its bytes those of R72 to R76 (the model's reading, log 7). -/
def Obligations.WireSymbolIsOneFeedOfItsBytes : Prop :=
  (∀ (s : State) (i : Instr) (bytes : List Byte), wireSymbolBytes s.cfg i = some bytes → exec i s = exec (.feed bytes) s) ∧
  ∀ s : State, exec .wireEnd s = exec (.feed [s.cfg.endByte]) s

/-- WIRE_LITERAL, WIRE_ESC_PAIR, the two default pairs and the two invalid escapes (R72 to R76): the symbol's bytes are
stored at `WC` as they are (R33), `WC` advances, OK is answered, and everything else is unchanged (the model's reading, log 7). -/
def Obligations.WireSymbolJoinsThePendingFrame : Prop :=
  ∀ (s : State) (i : Instr) (bytes : List Byte), s.lc = .ready → Memory.wf s.acc → wireSymbolBytes s.cfg i = some bytes →
    s.cfg.endByte ∉ bytes → s.wc + bytes.length ≤ s.params.cap →
    ∃ t, exec i s = .next t ∧ t = { s with acc := t.acc, wc := s.wc + bytes.length, trace := s.trace ++ [.resp .ok []] } ∧
      Memory.StoredAt s.acc t.acc s.wc bytes

/-- WIRE_END (R79): the terminator ends the pending frame: nothing for an empty frame, its message, or a malformed drop; `WC`
is 0 after each and `ACC` is unchanged (the model's reading, log 7). -/
def Obligations.WireEndEndsThePendingFrame : Prop :=
  ∀ (s : State) (p : List Byte), s.lc = .ready → s.wc ≤ s.params.cap → s.pending = some p →
    ∃ t, exec .wireEnd s = .next t ∧ s.SameBesideFeed t ∧ t.wc = 0 ∧ t.acc = s.acc ∧ t.overflowCount = s.overflowCount ∧
      (p = [] → t.malformedCount = s.malformedCount ∧ t.trace = s.trace ++ [.resp .ok []]) ∧
      (p ≠ [] → ∀ m, slipDecode s.cfg p = some m →
        t.malformedCount = s.malformedCount ∧ t.trace = s.trace ++ [.msg m, .resp .ok []]) ∧
      (p ≠ [] → slipDecode s.cfg p = none → t.malformedCount = s.malformedCount + 1 ∧
        t.trace = s.trace ++ (if s.params.policy = .surface then [.malformed] else []) ++ [.resp .ok []])

/-- R72, R74, R75: a well-formed symbol that arrives after a well-formed part of a frame, then the terminator: the message ends
with the byte the symbol stands for (the model's reading, log 7). -/
def Obligations.WireSymbolStandsForItsByte : Prop :=
  ∀ (n : Nat) (s : State) (p m : List Byte) (i : Instr) (b : Byte), s.lc = .ready → s.cfg.WF n → Memory.wf s.acc →
    s.pending = some p → slipDecode s.cfg p = some m → s.wc + 2 ≤ s.params.cap →
    ((i = .wireLiteral b ∧ b ≠ s.cfg.endByte ∧ b ≠ s.cfg.escByte) ∨
     (∃ r k, i = .wireEscPair r ∧ replRule s.cfg r = some k ∧ b = (s.cfg.rule k).frag) ∨
     (i = .wireEscEndDefault ∧ escapeTableIsDefault s.cfg = true ∧ b = 0xC0) ∨
     (i = .wireEscEscDefault ∧ escapeTableIsDefault s.cfg = true ∧ b = 0xDB)) →
    ∃ t, execAll [i, .wireEnd] s = .next t ∧ streamEvents t.trace = streamEvents s.trace ++ [.msg (m ++ [b])] ∧
      t.malformedCount = s.malformedCount ∧ t.wc = 0

/-- R76, R176: an escape byte that is the last of its body, or is followed by no replacement, makes the frame malformed: the
terminator after it drops the frame without a message and counts it (the model's reading, log 7). -/
def Obligations.InvalidWireEscapeDropsTheFrame : Prop :=
  ∀ (n : Nat) (s : State) (p m : List Byte) (i : Instr), s.lc = .ready → s.cfg.WF n → Memory.wf s.acc →
    s.pending = some p → slipDecode s.cfg p = some m → s.wc + 2 ≤ s.params.cap →
    (i = .wireInvalidEscLast ∨ ∃ x, i = .wireInvalidEscOther x ∧ x ≠ s.cfg.endByte ∧ replRule s.cfg x = none) →
    ∃ t, execAll [i, .wireEnd] s = .next t ∧ t.malformedCount = s.malformedCount + 1 ∧ t.wc = 0 ∧
      streamEvents t.trace = streamEvents s.trace ++ (if s.params.policy = .surface then [.malformed] else [])

/-! ## The whole command set -/

/-- R83, R89: every instruction that completes adds to the trace exactly one response, as its last event. That a wire symbol responds
is the model's reading (log 7). -/
def Obligations.EveryInstructionRespondsOnceAndLast : Prop :=
  ∀ (i : Instr) (s t : State), exec i s = .next t →
    ∃ (events : List Event) (st : Status) (data : List Byte),
      t.trace = s.trace ++ events ++ [.resp st data] ∧ responses events = []

/-- R262, R57: ENCODE, SEND, DECODE, READ_STATUS and READ_CONFIG leave everything but the trace as it was, the pending frame among
it. -/
def Obligations.ReadAndCodecCommandsChangeNoState : Prop :=
  ∀ (i : Instr) (s t : State),
    (∃ p, i = .encode p ∨ i = .send p ∨ i = .decode p ∨ i = .readStatus p ∨ i = .readConfig p) → exec i s = .next t →
    ∃ events, s.OnlyTrace t events

/-- R61: CONFIGURE, ENCODE, SEND, DECODE, READ_CONFIG and the reserved opcodes neither read nor write `ACC` or `WC`, and
READ_STATUS no byte of `ACC`: with other contents there they do the same, and leave those contents. (R61 says that READ_STATUS
does not read `WC`; R200 says it does: log 17.) -/
def Obligations.AccumulationBufferIsIsolated : Prop :=
  ∀ (i : Instr) (s t : State) (acc : Memory) (wc : Nat), exec i s = .next t →
    ((∃ p, i = .configure p ∨ i = .encode p ∨ i = .send p ∨ i = .decode p ∨ i = .readConfig p ∨ ∃ op, i = .reserved op p) →
      exec i { s with acc := acc, wc := wc } = .next { t with acc := acc, wc := wc } ∧ t.acc = s.acc ∧ t.wc = s.wc) ∧
    ((∃ p, i = .readStatus p) → exec i { s with acc := acc } = .next { t with acc := acc } ∧ t.acc = s.acc ∧ t.wc = s.wc)

/-- R35, R36: nothing but FEED (with the wire symbols, which are FEEDs, log 7) and RESET changes a counter. -/
def Obligations.OnlyFeedAndResetChangeTheCounters : Prop :=
  ∀ (i : Instr) (s t : State), isFeed i = false → (∀ operand, i ≠ .reset operand) → exec i s = .next t →
    t.malformedCount = s.malformedCount ∧ t.overflowCount = s.overflowCount

/-- R259: no command checks a payload, frame or message against `CFG_MAXLEN`: with another value there, every instruction but
CONFIGURE, READ_CONFIG and RESET does the same. -/
def Obligations.MaxMessageLengthIsNotEnforced : Prop :=
  ∀ (i : Instr) (s t : State) (maxLen : Word32),
    (∀ p, i ≠ .configure p ∧ i ≠ .readConfig p ∧ i ≠ .reset p) → exec i s = .next t →
    exec i { s with cfg := { s.cfg with maxLen := maxLen } } = .next { t with cfg := { t.cfg with maxLen := maxLen } }

/-- R251: no rule reads a configuration register before it is written: with other contents there while `UNCONFIGURED`, a
step does the same to every observer, and a successful CONFIGURE gives the same definition. -/
def Obligations.UnspecifiedConfigurationIsNotObservable : Prop :=
  ∀ (s t : State) (c : CfgRegs), s.params.Legal → s.lc = .unconfigured → step s = .next t →
    ∃ t', step { s with cfg := c } = .next t' ∧ t'.trace = t.trace ∧ t'.lc = t.lc ∧ t'.wc = t.wc ∧ t'.acc = t.acc ∧
      t'.malformedCount = t.malformedCount ∧ t'.overflowCount = t.overflowCount ∧ t'.inbox = t.inbox ∧
      (t.lc = .ready → t'.cfg.definition = t.cfg.definition)

/-- R34: a byte of `ACC` at or above `WC` is never read: two legal states that differ only there step to states that differ only
there. -/
def Obligations.BytesAboveTheCursorAreNotObservable : Prop :=
  ∀ s s' t : State, s.Inv → s'.Inv → s.SameObs s' → step s = .next t → ∃ t', step s' = .next t' ∧ t.SameObs t'

/-- R39: a step of one instance changes no other. The list of states is the model's choice (log 15). -/
def Obligations.InstancesShareNoState : Prop :=
  ∀ (k : Nat) (bank bank' : List State), bankStep k bank = .next bank' →
    bank'.length = bank.length ∧ (∀ j, j ≠ k → bank'[j]? = bank[j]?) ∧
    ∀ s, bank[k]? = some s → ∃ t, step s = .next t ∧ bank'[k]? = some t
end

