-- ==== Sys2Proof/Laws/Checks.lean ====
section
/-! SUPPORT. The checks of a Protocol Definition in a form that can be evaluated (R104). -/

namespace Sys2Proof.Machine

/-- Two entries share a byte exactly when the bytes are not pairwise distinct. -/
theorem duplicate_iff (l : List Rule) (f : Rule → Byte) :
    (∃ (i j : Nat) (ri rj : Rule), i < j ∧ l[i]? = some ri ∧ l[j]? = some rj ∧ f ri = f rj) ↔ ¬ (l.map f).Nodup := by
  rw [List.Nodup, List.pairwise_iff_getElem]
  constructor
  · rintro ⟨i, j, ri, rj, hij, hi, hj, hf⟩ h
    obtain ⟨hi', rfl⟩ := List.getElem?_eq_some_iff.mp hi
    obtain ⟨hj', rfl⟩ := List.getElem?_eq_some_iff.mp hj
    exact h i j (by simpa using hi') (by simpa using hj') hij (by simpa using hf)
  · intro h
    push Not at h
    obtain ⟨i, j, hi, hj, hij, hf⟩ := h
    simp only [List.length_map] at hi hj
    exact ⟨i, j, l[i], l[j], hij, by simp [hi], by simp [hj], by simpa using hf⟩

/-- The codes that name a check of R104. -/
theorem Definition.fails_code {n code : Nat} {d : Definition} (h : d.Fails n code) : 3 ≤ code ∧ code ≤ 9 := by
  unfold Definition.Fails at h
  split at h <;> first | omega | exact h.elim

/-- The checks 0x05 and 0x08 say that some bytes are not pairwise distinct. -/
theorem Definition.fails_five_iff (n : Nat) (d : Definition) : d.Fails n 0x05 ↔ ¬ (d.rules.map Rule.frag).Nodup :=
  duplicate_iff d.rules Rule.frag

theorem Definition.fails_eight_iff (n : Nat) (d : Definition) : d.Fails n 0x08 ↔ ¬ (d.rules.map Rule.repl).Nodup :=
  duplicate_iff d.rules Rule.repl

end Sys2Proof.Machine
end

