-- ==== Sys2Proof/Laws/Codec.lean ====
section
/-! SUPPORT. Laws of the rule lookups (R110), of `encode` (R130) and of `decode` (R150), and `WF` check by check (R104). -/

namespace Sys2Proof.Machine

variable (c : CfgRegs)

/-! ## Rule lookups -/

/-- `CFG_RULE[k]` of a rule in use. -/
theorem CfgRegs.rule_eq_getElem {k : Nat} (h : k < c.rules.length) : c.rule k = c.rules[k] := by
  have hk : k < c.table.length := by simp [CfgRegs.rules] at h; omega
  simp [CfgRegs.rule, CfgRegs.rules, hk]

theorem CfgRegs.rule_mem {k : Nat} (h : k < c.rules.length) : c.rule k ∈ c.rules := by
  rw [c.rule_eq_getElem h]; exact List.getElem_mem h

/-- `fragRule` answers the least index (R110). -/
theorem fragRule_eq_some_iff (b : Byte) (k : Nat) :
    fragRule c b = some k ↔ k < c.rules.length ∧ (c.rule k).frag = b ∧ ∀ j < k, (c.rule j).frag ≠ b := by
  unfold fragRule
  rw [List.findIdx?_eq_some_iff_getElem]
  constructor
  · rintro ⟨h, hb, hj⟩
    refine ⟨h, by rw [c.rule_eq_getElem h]; simpa using hb, fun j hjk => ?_⟩
    rw [c.rule_eq_getElem (by omega)]; simpa using hj j hjk
  · rintro ⟨h, hb, hj⟩
    refine ⟨h, by rw [← c.rule_eq_getElem h]; simpa using hb, fun j hjk => ?_⟩
    have := hj j hjk
    rw [c.rule_eq_getElem (by omega)] at this; simpa using this

theorem replRule_eq_some_iff (b : Byte) (k : Nat) :
    replRule c b = some k ↔ k < c.rules.length ∧ (c.rule k).repl = b ∧ ∀ j < k, (c.rule j).repl ≠ b := by
  unfold replRule
  rw [List.findIdx?_eq_some_iff_getElem]
  constructor
  · rintro ⟨h, hb, hj⟩
    refine ⟨h, by rw [c.rule_eq_getElem h]; simpa using hb, fun j hjk => ?_⟩
    rw [c.rule_eq_getElem (by omega)]; simpa using hj j hjk
  · rintro ⟨h, hb, hj⟩
    refine ⟨h, by rw [← c.rule_eq_getElem h]; simpa using hb, fun j hjk => ?_⟩
    have := hj j hjk
    rw [c.rule_eq_getElem (by omega)] at this; simpa using this

theorem fragRule_eq_none_iff (b : Byte) : fragRule c b = none ↔ ∀ r ∈ c.rules, r.frag ≠ b := by
  simp [fragRule]

theorem replRule_eq_none_iff (b : Byte) : replRule c b = none ↔ ∀ r ∈ c.rules, r.repl ≠ b := by
  simp [replRule]

/-! ## Well-formedness -/

/-- `WF` is every check of R104 passed. -/
theorem CfgRegs.wf_iff (n : Nat) : c.WF n ↔
    c.rules.length ≤ n ∧ c.endByte ≠ c.escByte ∧ (c.rules.map Rule.frag).Nodup ∧ c.endByte ∈ c.rules.map Rule.frag ∧
    c.escByte ∈ c.rules.map Rule.frag ∧ (c.rules.map Rule.repl).Nodup ∧ c.endByte ∉ c.rules.map Rule.repl := by
  unfold CfgRegs.WF wfReason CfgRegs.definition
  dsimp only
  split_ifs <;> simp_all

/-- CONFIGURE's writes leave exactly the rules of the definition in use. -/
theorem CfgRegs.rules_load (d : Definition) (h : d.rules.length < 256) : (c.load d).rules = d.rules := by
  simp [CfgRegs.rules, CfgRegs.load, BitVec.toNat_ofNat, Nat.mod_eq_of_lt h]

theorem CfgRegs.definition_load (d : Definition) (h : d.rules.length < 256) : (c.load d).definition = d := by
  have := c.rules_load d h
  cases d
  simp_all [CfgRegs.definition, CfgRegs.load]

theorem CfgRegs.table_length_load (d : Definition) (h : d.rules.length ≤ c.table.length) :
    (c.load d).table.length = c.table.length := by
  simp [CfgRegs.load]; omega

/-! ## encode -/

@[simp] theorem slipEncode_nil : slipEncode c [] = [] := rfl

@[simp] theorem slipEncode_cons (b : Byte) (p : List Byte) : slipEncode c (b :: p) = escapeByte c b ++ slipEncode c p := rfl

theorem escapeByte_of_some {b : Byte} {k : Nat} (h : fragRule c b = some k) :
    escapeByte c b = [c.escByte, (c.rule k).repl] := by simp [escapeByte, h]

theorem escapeByte_of_none {b : Byte} (h : fragRule c b = none) : escapeByte c b = [b] := by simp [escapeByte, h]

/-! ## decode -/

@[simp] theorem slipDecode_nil : slipDecode c [] = some [] := rfl

/-- A literal passes through (R152). -/
theorem slipDecode_literal {b : Byte} (f : List Byte) (h : b ≠ c.escByte) :
    slipDecode c (b :: f) = (slipDecode c f).map (b :: ·) := by
  cases f <;> simp [slipDecode, h]

/-- An escape byte that ends the body (R76 (a)). -/
@[simp] theorem slipDecode_escape_last : slipDecode c [c.escByte] = none := by simp [slipDecode]

/-- An escape pair, or an escape byte followed by no replacement (R76 (b)). -/
theorem slipDecode_escape (x : Byte) (f : List Byte) : slipDecode c (c.escByte :: x :: f) =
    match replRule c x with
    | some k => (slipDecode c f).map ((c.rule k).frag :: ·)
    | none   => none := by cases h : replRule c x <;> simp [slipDecode, h]

end Sys2Proof.Machine
end

