-- ==== Sys2Proof/Laws/Memory.lean ====
section
/-! SUPPORT. Laws of the accumulation buffer: a read after a write, and that every operation keeps the canonical form. -/

namespace Sys2Proof.Machine.Memory

/-! ## One byte -/

@[simp] theorem read_nil (a : Nat) : read [] a = none := rfl

/-- A read after a write. -/
theorem read_write (m : Memory) (a x : Nat) (b : Byte) (hm : m.wf) :
    (m.write a b).read x = if x = a then some b else m.read x := by
  induction m with
  | nil => simp [write, read, eq_comm]
  | cons p m ih =>
    obtain ⟨k, v⟩ := p
    have hm' := List.pairwise_cons.mp hm
    simp only [write]
    split
    · rename_i h; simp only [read]; grind
    · split
      · rename_i h h'; subst h'; simp only [read]; grind
      · rename_i h h'
        simp only [read, ih hm'.2]
        grind

@[simp] theorem read_write_same (m : Memory) (a : Nat) (b : Byte) (hm : m.wf) : (m.write a b).read a = some b := by
  simp [read_write, hm]

theorem read_write_other (m : Memory) {a x : Nat} (b : Byte) (hm : m.wf) (h : x ≠ a) : (m.write a b).read x = m.read x := by
  simp [read_write, hm, h]

/-- What a write lists: the new byte and old ones. -/
theorem mem_write {m : Memory} {a : Nat} {b : Byte} {p : Host.Cell} (h : p ∈ m.write a b) : p = (a, b) ∨ p ∈ m := by
  induction m with
  | nil => simpa [write] using h
  | cons q m ih =>
    obtain ⟨k, v⟩ := q
    simp only [write] at h
    split at h
    · simpa using h
    · split at h <;> grind

/-- A write keeps the canonical form. -/
theorem write_wf {m : Memory} (a : Nat) (b : Byte) (hm : m.wf) : (m.write a b).wf := by
  induction m with
  | nil => simp [write]
  | cons q m ih =>
    obtain ⟨k, v⟩ := q
    have hm' := List.pairwise_cons.mp hm
    simp only [write]
    split
    · rename_i h
      refine List.pairwise_cons.mpr ⟨fun p hp => ?_, hm⟩
      rcases List.mem_cons.mp hp with rfl | hp
      · exact h
      · exact Nat.lt_trans h (hm'.1 p hp)
    · split
      · rename_i h h'; subst h'; exact List.pairwise_cons.mpr ⟨hm'.1, hm'.2⟩
      · rename_i h h'
        refine List.pairwise_cons.mpr ⟨fun p hp => ?_, ih hm'.2⟩
        rcases mem_write hp with rfl | hp
        · show k < a; omega
        · exact hm'.1 p hp

/-! ## Runs of bytes -/

@[simp] theorem writeBytes_nil (m : Memory) (a : Nat) : m.writeBytes a [] = m := rfl

@[simp] theorem readBytes_zero (m : Memory) (a : Nat) : m.readBytes a 0 = some [] := by cases a <;> rfl

theorem readBytes_succ (m : Memory) (a n : Nat) : m.readBytes a (n + 1) =
    match m.read a, m.readBytes (a + 1) n with
    | some b, some bs => some (b :: bs)
    | _, _ => none := by cases a <;> rfl

/-- Every memory operation keeps the canonical form: `writeBytes`. -/
theorem writeBytes_wf {m : Memory} (a : Nat) (bs : List Byte) (hm : m.wf) : (m.writeBytes a bs).wf := by
  induction bs generalizing m a with
  | nil => exact hm
  | cons b bs ih => exact ih (a + 1) (write_wf a b hm)

/-- A read after a run of writes: the byte written there, or what was there. -/
theorem read_writeBytes (m : Memory) (a x : Nat) (bs : List Byte) (hm : m.wf) :
    (m.writeBytes a bs).read x = if a ≤ x ∧ x < a + bs.length then bs[x - a]? else m.read x := by
  induction bs generalizing m a with
  | nil => grind [writeBytes]
  | cons b bs ih =>
    rw [writeBytes, ih _ _ (write_wf a b hm), read_write _ _ _ _ hm]
    by_cases hx : x = a
    · subst hx; simp
    · by_cases hr : a + 1 ≤ x ∧ x < a + 1 + bs.length
      · have h1 : a ≤ x ∧ x < a + (b :: bs).length := by simp; omega
        have h2 : x - a = (x - (a + 1)) + 1 := by omega
        rw [if_pos hr, if_pos h1, h2, List.getElem?_cons_succ]
      · have h1 : ¬ (a ≤ x ∧ x < a + (b :: bs).length) := by simp; omega
        simp only [hr, h1, hx, if_false]

/-- What a run of writes lists. -/
theorem mem_writeBytes {m : Memory} {a : Nat} {bs : List Byte} {p : Host.Cell} (h : p ∈ m.writeBytes a bs) :
    p.1 < a + bs.length ∨ p ∈ m := by
  induction bs generalizing m a with
  | nil => exact .inr h
  | cons b bs ih =>
    rcases ih h with h | h
    · left; simp; omega
    · rcases mem_write h with rfl | h
      · left; simp
      · exact .inr h

/-- `readBytes` answers exactly when every byte of the run holds a value. -/
theorem readBytes_isSome_iff (m : Memory) (a n : Nat) :
    (m.readBytes a n).isSome ↔ ∀ x, a ≤ x → x < a + n → (m.read x).isSome := by
  induction n generalizing a with
  | zero => simp; omega
  | succ n ih =>
    rw [readBytes_succ]
    constructor
    · intro h x hx hx'
      cases h1 : m.read a with
      | none => simp [h1] at h
      | some b =>
        cases h2 : m.readBytes (a + 1) n with
        | none => simp [h1, h2] at h
        | some bs =>
          by_cases hxa : x = a
          · simp [hxa, h1]
          · exact (ih (a + 1)).mp (by simp [h2]) x (by omega) (by omega)
    · intro h
      obtain ⟨b, h1⟩ := Option.isSome_iff_exists.mp (h a (by omega) (by omega))
      obtain ⟨bs, h2⟩ := Option.isSome_iff_exists.mp ((ih (a + 1)).mpr fun x hx hx' => h x (by omega) (by omega))
      simp [h1, h2]

/-- The length and the bytes of what `readBytes` answers. -/
theorem readBytes_eq_some_iff (m : Memory) (a n : Nat) (bs : List Byte) :
    m.readBytes a n = some bs ↔ bs.length = n ∧ ∀ i < n, m.read (a + i) = bs[i]? := by
  induction n generalizing a bs with
  | zero => simp [eq_comm (a := ([] : List Byte)), List.length_eq_zero_iff]
  | succ n ih =>
    rw [readBytes_succ]
    constructor
    · intro h
      cases h1 : m.read a with
      | none => simp [h1] at h
      | some b =>
        cases h2 : m.readBytes (a + 1) n with
        | none => simp [h1, h2] at h
        | some bs' =>
          obtain ⟨hl, hb⟩ := (ih (a + 1) bs').mp h2
          simp only [h1, h2, Option.some.injEq] at h
          subst h
          refine ⟨by simp [hl], fun i hi => ?_⟩
          cases i with
          | zero => simpa using h1
          | succ i => simpa [Nat.add_right_comm, Nat.add_assoc, Nat.add_comm 1 i] using hb i (by omega)
    · rintro ⟨hl, hb⟩
      cases bs with
      | nil => simp at hl
      | cons b bs =>
        have h1 : m.read a = some b := by simpa using hb 0 (by omega)
        have h2 : m.readBytes (a + 1) n = some bs := (ih (a + 1) bs).mpr
          ⟨by simpa using hl, fun i hi => by
            have := hb (i + 1) (by omega)
            simpa [Nat.add_right_comm, Nat.add_assoc, Nat.add_comm 1 i] using this⟩
        simp [h1, h2]

theorem length_of_readBytes {m : Memory} {a n : Nat} {bs : List Byte} (h : m.readBytes a n = some bs) : bs.length = n :=
  ((readBytes_eq_some_iff m a n bs).mp h).1

/-- Reading depends on the bytes of the run alone. -/
theorem readBytes_congr {m m' : Memory} {a n : Nat} (h : ∀ x, a ≤ x → x < a + n → m.read x = m'.read x) :
    m.readBytes a n = m'.readBytes a n := by
  induction n generalizing a with
  | zero => simp
  | succ n ih =>
    rw [readBytes_succ, readBytes_succ, h a (by omega) (by omega), ih fun x hx hx' => h x (by omega) (by omega)]

/-- Appending at the end of a run (R172, R173): the run read afterwards is the old run and the bytes written. -/
theorem readBytes_append {m : Memory} {n : Nat} {bs : List Byte} (seg : List Byte) (hm : m.wf) (h : m.readBytes 0 n = some bs) :
    (m.writeBytes n seg).readBytes 0 (n + seg.length) = some (bs ++ seg) := by
  obtain ⟨hl, hb⟩ := (readBytes_eq_some_iff ..).mp h
  refine (readBytes_eq_some_iff ..).mpr ⟨by simp [hl], fun i hi => ?_⟩
  rw [read_writeBytes _ _ _ _ hm]
  by_cases hin : n ≤ 0 + i ∧ 0 + i < n + seg.length
  · rw [if_pos hin, List.getElem?_append_right (by omega), hl]; simp
  · rw [if_neg hin, hb i (by omega), List.getElem?_append_left (by omega)]

end Sys2Proof.Machine.Memory
end

