-- ==== Sys2Proof/Laws/State.lean ====
section
/-! SUPPORT. One lemma per field per update of State, so that no proof unfolds an update. -/

namespace Sys2Proof.Machine.State

variable (s : State) (e : Event) (n : Nat)

/-! ## emit -/

@[simp] theorem params_emit : (s.emit e).params = s.params := rfl
@[simp] theorem lc_emit : (s.emit e).lc = s.lc := rfl
@[simp] theorem cfg_emit : (s.emit e).cfg = s.cfg := rfl
@[simp] theorem acc_emit : (s.emit e).acc = s.acc := rfl
@[simp] theorem wc_emit : (s.emit e).wc = s.wc := rfl
@[simp] theorem malformedCount_emit : (s.emit e).malformedCount = s.malformedCount := rfl
@[simp] theorem overflowCount_emit : (s.emit e).overflowCount = s.overflowCount := rfl
@[simp] theorem inbox_emit : (s.emit e).inbox = s.inbox := rfl
@[simp] theorem trace_emit : (s.emit e).trace = s.trace ++ [e] := rfl
@[simp] theorem freeTick_emit : (s.emit e).freeTick = s.freeTick := rfl

/-! ## clearCursor -/

@[simp] theorem params_clearCursor : (s.clearCursor).params = s.params := rfl
@[simp] theorem lc_clearCursor : (s.clearCursor).lc = s.lc := rfl
@[simp] theorem cfg_clearCursor : (s.clearCursor).cfg = s.cfg := rfl
@[simp] theorem acc_clearCursor : (s.clearCursor).acc = s.acc := rfl
@[simp] theorem wc_clearCursor : (s.clearCursor).wc = 0 := rfl
@[simp] theorem malformedCount_clearCursor : (s.clearCursor).malformedCount = s.malformedCount := rfl
@[simp] theorem overflowCount_clearCursor : (s.clearCursor).overflowCount = s.overflowCount := rfl
@[simp] theorem inbox_clearCursor : (s.clearCursor).inbox = s.inbox := rfl
@[simp] theorem trace_clearCursor : (s.clearCursor).trace = s.trace := rfl
@[simp] theorem freeTick_clearCursor : (s.clearCursor).freeTick = s.freeTick := rfl

/-! ## advanceCursor -/

@[simp] theorem params_advanceCursor : (s.advanceCursor n).params = s.params := rfl
@[simp] theorem lc_advanceCursor : (s.advanceCursor n).lc = s.lc := rfl
@[simp] theorem cfg_advanceCursor : (s.advanceCursor n).cfg = s.cfg := rfl
@[simp] theorem acc_advanceCursor : (s.advanceCursor n).acc = s.acc := rfl
@[simp] theorem wc_advanceCursor : (s.advanceCursor n).wc = s.wc + n := rfl
@[simp] theorem malformedCount_advanceCursor : (s.advanceCursor n).malformedCount = s.malformedCount := rfl
@[simp] theorem overflowCount_advanceCursor : (s.advanceCursor n).overflowCount = s.overflowCount := rfl
@[simp] theorem inbox_advanceCursor : (s.advanceCursor n).inbox = s.inbox := rfl
@[simp] theorem trace_advanceCursor : (s.advanceCursor n).trace = s.trace := rfl
@[simp] theorem freeTick_advanceCursor : (s.advanceCursor n).freeTick = s.freeTick := rfl

/-! ## dropOverflow -/

@[simp] theorem params_dropOverflow : (s.dropOverflow).params = s.params := rfl
@[simp] theorem lc_dropOverflow : (s.dropOverflow).lc = s.lc := rfl
@[simp] theorem cfg_dropOverflow : (s.dropOverflow).cfg = s.cfg := rfl
@[simp] theorem acc_dropOverflow : (s.dropOverflow).acc = s.acc := rfl
@[simp] theorem wc_dropOverflow : (s.dropOverflow).wc = 0 := rfl
@[simp] theorem malformedCount_dropOverflow : (s.dropOverflow).malformedCount = s.malformedCount := rfl
@[simp] theorem overflowCount_dropOverflow : (s.dropOverflow).overflowCount = s.overflowCount + 1 := rfl
@[simp] theorem inbox_dropOverflow : (s.dropOverflow).inbox = s.inbox := rfl
@[simp] theorem trace_dropOverflow : (s.dropOverflow).trace = s.trace := rfl
@[simp] theorem freeTick_dropOverflow : (s.dropOverflow).freeTick = s.freeTick := rfl

/-! ## applyReset -/

@[simp] theorem params_applyReset : (s.applyReset).params = s.params := rfl
@[simp] theorem lc_applyReset : (s.applyReset).lc = .unconfigured := rfl
@[simp] theorem cfg_applyReset : (s.applyReset).cfg = CfgRegs.unspecified s.params s.freeTick := rfl
@[simp] theorem acc_applyReset : (s.applyReset).acc = [] := rfl
@[simp] theorem wc_applyReset : (s.applyReset).wc = 0 := rfl
@[simp] theorem malformedCount_applyReset : (s.applyReset).malformedCount = 0 := rfl
@[simp] theorem overflowCount_applyReset : (s.applyReset).overflowCount = 0 := rfl
@[simp] theorem inbox_applyReset : (s.applyReset).inbox = s.inbox := rfl
@[simp] theorem trace_applyReset : (s.applyReset).trace = s.trace := rfl
@[simp] theorem freeTick_applyReset : (s.applyReset).freeTick = s.freeTick + 1 := rfl

/-! ## dropMalformed -/

/-- The event a malformed frame shows under each policy (R176). -/
theorem dropMalformed_eq : s.dropMalformed =
    { s with malformedCount := s.malformedCount + 1,
             trace := s.trace ++ (if s.params.policy = .surface then [.malformed] else []) } := by
  cases h : s.params.policy <;> simp [dropMalformed, h, emit]

@[simp] theorem params_dropMalformed : s.dropMalformed.params = s.params := by rw [dropMalformed_eq]
@[simp] theorem lc_dropMalformed : s.dropMalformed.lc = s.lc := by rw [dropMalformed_eq]
@[simp] theorem cfg_dropMalformed : s.dropMalformed.cfg = s.cfg := by rw [dropMalformed_eq]
@[simp] theorem acc_dropMalformed : s.dropMalformed.acc = s.acc := by rw [dropMalformed_eq]
@[simp] theorem wc_dropMalformed : s.dropMalformed.wc = s.wc := by rw [dropMalformed_eq]
@[simp] theorem malformedCount_dropMalformed : s.dropMalformed.malformedCount = s.malformedCount + 1 := by rw [dropMalformed_eq]
@[simp] theorem overflowCount_dropMalformed : s.dropMalformed.overflowCount = s.overflowCount := by rw [dropMalformed_eq]
@[simp] theorem inbox_dropMalformed : s.dropMalformed.inbox = s.inbox := by rw [dropMalformed_eq]
@[simp] theorem trace_dropMalformed : s.dropMalformed.trace = s.trace ++ (if s.params.policy = .surface then [.malformed] else []) := by rw [dropMalformed_eq]
@[simp] theorem freeTick_dropMalformed : s.dropMalformed.freeTick = s.freeTick := by rw [dropMalformed_eq]

/-! ## Power-on -/

variable (p : Config.Params)

@[simp] theorem params_resetWith : (resetWith p).params = p := rfl
@[simp] theorem lc_resetWith : (resetWith p).lc = .unconfigured := rfl
@[simp] theorem cfg_resetWith : (resetWith p).cfg = CfgRegs.atPowerOn p := rfl
@[simp] theorem acc_resetWith : (resetWith p).acc = [] := rfl
@[simp] theorem wc_resetWith : (resetWith p).wc = 0 := rfl
@[simp] theorem malformedCount_resetWith : (resetWith p).malformedCount = 0 := rfl
@[simp] theorem overflowCount_resetWith : (resetWith p).overflowCount = 0 := rfl
@[simp] theorem inbox_resetWith : (resetWith p).inbox = [] := rfl
@[simp] theorem trace_resetWith : (resetWith p).trace = [] := rfl
@[simp] theorem freeTick_resetWith : (resetWith p).freeTick = 0 := rfl

end Sys2Proof.Machine.State
end

