-- ==== Sys2Proof/Laws/Ops.lean ====
section
/-! SUPPORT. What the shared operations answer: `respond`, `raise`, the gate, `memRead` and `memWrite`. -/

namespace Sys2Proof.Machine

@[simp] theorem respond_eq (st : Status) (d : List Byte) (s : State) : respond st d s = .next (s.emit (.resp st d)) := rfl

@[simp] theorem raise_eq (e : BlockError) (s : State) : raise e s = .next (s.emit (.resp e.status e.info)) := rfl

theorem whenReady_ready {s : State} (h : s.lc = .ready) (run : State → Result) : whenReady s run = run s := by
  simp [whenReady, h]

theorem whenReady_unconfigured {s : State} (h : s.lc = .unconfigured) (run : State → Result) :
    whenReady s run = .next (s.emit (.resp .notConfigured [])) := by
  simp [whenReady, h, BlockError.status, BlockError.info]

/-- The gate's two answers (R204). -/
theorem whenReady_cases {s t : State} {run : State → Result} (h : whenReady s run = .next t) :
    (s.lc = .unconfigured ∧ t = s.emit (.resp .notConfigured [])) ∨ (s.lc = .ready ∧ run s = .next t) := by
  cases hl : s.lc with
  | unconfigured => rw [whenReady_unconfigured hl] at h; cases h; exact .inl ⟨rfl, rfl⟩
  | ready => rw [whenReady_ready hl] at h; exact .inr ⟨rfl, h⟩

theorem memRead_ok_iff (s : State) (a n : Nat) (bs : List Byte) :
    memRead s a n = .ok bs ↔ a + n ≤ s.params.cap ∧ s.acc.readBytes a n = some bs := by
  unfold memRead
  split
  · cases h : s.acc.readBytes a n <;> simp [*]
  · simp [*]

theorem memWrite_ok_iff (s t : State) (a : Nat) (bs : List Byte) :
    memWrite s a bs = .ok t ↔ a + bs.length ≤ s.params.cap ∧ t = { s with acc := s.acc.writeBytes a bs } := by
  unfold memWrite
  split <;> simp [*, eq_comm]

theorem memWrite_ok {s : State} {a : Nat} {bs : List Byte} (h : a + bs.length ≤ s.params.cap) :
    memWrite s a bs = .ok { s with acc := s.acc.writeBytes a bs } := (memWrite_ok_iff ..).mpr ⟨h, rfl⟩

end Sys2Proof.Machine
end

