-- ==== Sys2Proof/Laws/Feed.lean ====
section
/-! SUPPORT. Laws of FEED's loop (R180): what a pass does, and what every FEED leaves alone. -/

namespace Sys2Proof.Machine

/-! ## Terminator search -/

theorem firstIndex_eq_none {seg : List Byte} {b : Byte} (h : b ∉ seg) : firstIndex seg b = none := by
  simp only [firstIndex, List.findIdx?_eq_none_iff]
  intro x hx
  have : x ≠ b := fun e => h (e ▸ hx)
  simpa using this

theorem firstIndex_append {seg : List Byte} {b : Byte} (h : b ∉ seg) (rest : List Byte) :
    firstIndex (seg ++ b :: rest) b = some seg.length := by
  have := firstIndex_eq_none h
  simp only [firstIndex] at this ⊢
  simp [List.findIdx?_append, this, List.findIdx?_cons]

/-- A chunk is one segment, or a segment, a terminator and the rest. -/
theorem chunk_cases (chunk : List Byte) (b : Byte) :
    b ∉ chunk ∨ ∃ seg rest, b ∉ seg ∧ chunk = seg ++ b :: rest := by
  by_cases h : b ∈ chunk
  · obtain ⟨seg, rest, he, hn⟩ := List.eq_append_cons_of_mem h
    exact .inr ⟨seg, rest, hn, he⟩
  · exact .inl h

/-! ## One pass of the loop -/

/-- The state after a segment is appended (R172, R173). -/
def State.append (seg : List Byte) (s : State) : State :=
  { s with acc := s.acc.writeBytes s.wc seg, wc := s.wc + seg.length }

/-- No terminator: the segment is all of `rest` (R172). -/
theorem feedLoop_tail {n : Nat} {seg : List Byte} {s : State} (h : s.cfg.endByte ∉ seg)
    (hc : s.wc + seg.length ≤ s.params.cap) :
    feedLoop (n + 1) seg s = .next ((s.append seg).emit (.resp .ok [])) := by
  have hc' : ¬ s.wc + seg.length > s.params.cap := by omega
  simp [feedLoop, firstIndex_eq_none h, hc', memWrite_ok hc, State.append, State.advanceCursor]

/-- A terminator: the segment is appended, the frame completed, and the loop goes on (R173 to R179). -/
theorem feedLoop_terminator {n : Nat} {seg rest : List Byte} {s : State} (h : s.cfg.endByte ∉ seg)
    (hc : s.wc + seg.length ≤ s.params.cap) :
    feedLoop (n + 1) (seg ++ s.cfg.endByte :: rest) s =
      match completeFrame (s.append seg) with
      | .error f => .fault f
      | .ok t    => if rest = [] then .next (t.emit (.resp .ok [])) else feedLoop n rest t := by
  have hc' : ¬ s.wc + seg.length > s.params.cap := by omega
  have hd : (seg ++ s.cfg.endByte :: rest).drop (seg.length + 1) = rest := by simp [List.drop_append]
  simp only [feedLoop, firstIndex_append h, hc', memWrite_ok hc, State.append, State.advanceCursor, List.take_left, if_false, hd,
    respond_eq]
    <;> (generalize completeFrame _ = r; cases r <;> rfl)

/-- The segment overflows, with or without a terminator after it: nothing is written, the rest is discarded (R174). -/
theorem feedLoop_overflow {n : Nat} {seg rest : List Byte} {s : State} (h : s.cfg.endByte ∉ seg)
    (hr : rest = [] ∨ ∃ r, rest = s.cfg.endByte :: r) (hc : s.wc + seg.length > s.params.cap) :
    feedLoop (n + 1) (seg ++ rest) s = .next (s.dropOverflow.emit (.resp .bufferOverflow [])) := by
  rcases hr with rfl | ⟨r, rfl⟩
  · simp [feedLoop, firstIndex_eq_none h, hc, BlockError.status, BlockError.info]
  · simp [feedLoop, firstIndex_append h, hc, BlockError.status, BlockError.info]

/-! ## Frame completion -/

/-- An empty frame (R178). -/
theorem completeFrame_empty {s : State} (h : s.wc = 0) : completeFrame s = .ok s := by
  have : s.clearCursor = s := by cases s; simp_all [State.clearCursor]
  simp [completeFrame, h, this]

/-- A non-empty pending frame (R175, R176). -/
theorem completeFrame_pending {s : State} {body : List Byte} (h : 0 < s.wc) (hc : s.wc ≤ s.params.cap)
    (hp : s.pending = some body) :
    completeFrame s = .ok (match slipDecode s.cfg body with
      | some m => (s.emit (.msg m)).clearCursor
      | none   => s.dropMalformed.clearCursor) := by
  have hr : memRead s 0 s.wc = .ok body := (memRead_ok_iff ..).mpr ⟨by omega, hp⟩
  simp only [completeFrame, hr, h, if_true]
  cases slipDecode s.cfg body <;> rfl

/-- Everything `completeFrame` can do: nothing, a message, or a malformed drop. -/
theorem completeFrame_cases {s t : State} (h : completeFrame s = .ok t) :
    (s.wc = 0 ∧ t = s) ∨
    ∃ body, 0 < s.wc ∧ s.wc ≤ s.params.cap ∧ s.pending = some body ∧
      ((∃ m, slipDecode s.cfg body = some m ∧ t = (s.emit (.msg m)).clearCursor) ∨
       (slipDecode s.cfg body = none ∧ t = s.dropMalformed.clearCursor)) := by
  by_cases hw : s.wc = 0
  · rw [completeFrame_empty hw] at h; cases h; exact .inl ⟨hw, rfl⟩
  · have hw' : 0 < s.wc := by omega
    cases hr : memRead s 0 s.wc with
    | error f => simp [completeFrame, hw', hr] at h
    | ok body =>
      obtain ⟨hc, hp⟩ := (memRead_ok_iff ..).mp hr
      have hc' : s.wc ≤ s.params.cap := by omega
      rw [completeFrame_pending hw' hc' hp] at h
      refine .inr ⟨body, hw', hc', hp, ?_⟩
      cases hd : slipDecode s.cfg body with
      | some m => exact .inl ⟨m, rfl, by simpa [hd] using h.symm⟩
      | none => exact .inr ⟨rfl, by simpa [hd] using h.symm⟩

/-! ## What every FEED leaves alone -/

/-- The fields FEED never writes (R180: no configuration register, no `LC`). -/
structure FeedFrame (s t : State) : Prop where
  params : t.params = s.params
  lc : t.lc = s.lc
  cfg : t.cfg = s.cfg
  inbox : t.inbox = s.inbox
  freeTick : t.freeTick = s.freeTick

theorem FeedFrame.refl (s : State) : FeedFrame s s := ⟨rfl, rfl, rfl, rfl, rfl⟩

theorem FeedFrame.trans {s t u : State} (h : FeedFrame s t) (g : FeedFrame t u) : FeedFrame s u :=
  ⟨g.params.trans h.params, g.lc.trans h.lc, g.cfg.trans h.cfg, g.inbox.trans h.inbox, g.freeTick.trans h.freeTick⟩

theorem append_frame (seg : List Byte) (s : State) : FeedFrame s (s.append seg) := ⟨rfl, rfl, rfl, rfl, rfl⟩

/-- `completeFrame`: its frame, the cursor, and the events it adds. -/
theorem completeFrame_frame {s t : State} (h : completeFrame s = .ok t) :
    FeedFrame s t ∧ t.wc = 0 ∧ t.acc = s.acc ∧ t.overflowCount = s.overflowCount := by
  rcases completeFrame_cases h with ⟨hw, rfl⟩ | ⟨body, -, -, -, ⟨m, -, rfl⟩ | ⟨-, rfl⟩⟩
  · exact ⟨.refl _, hw, rfl, rfl⟩
  · exact ⟨⟨rfl, rfl, rfl, rfl, rfl⟩, rfl, rfl, rfl⟩
  · exact ⟨⟨by simp, by simp, by simp, by simp, by simp⟩, by simp, by simp, by simp⟩

/-- Everything FEED's loop can do: it overflows on a segment, it ends on a tail, or it completes a frame and either stops
or goes on with what is left. -/
theorem feedLoop_cases {n : Nat} {chunk : List Byte} {s t : State} (h : feedLoop (n + 1) chunk s = .next t) :
    (∃ seg rest, s.cfg.endByte ∉ seg ∧ (rest = [] ∨ ∃ r, rest = s.cfg.endByte :: r) ∧ chunk = seg ++ rest ∧
      s.wc + seg.length > s.params.cap ∧ t = s.dropOverflow.emit (.resp .bufferOverflow [])) ∨
    (s.cfg.endByte ∉ chunk ∧ s.wc + chunk.length ≤ s.params.cap ∧ t = (s.append chunk).emit (.resp .ok [])) ∨
    (∃ seg rest u, s.cfg.endByte ∉ seg ∧ chunk = seg ++ s.cfg.endByte :: rest ∧ s.wc + seg.length ≤ s.params.cap ∧
      completeFrame (s.append seg) = .ok u ∧
      ((rest = [] ∧ t = u.emit (.resp .ok [])) ∨ (rest ≠ [] ∧ feedLoop n rest u = .next t))) := by
  rcases chunk_cases chunk s.cfg.endByte with hn | ⟨seg, rest, hn, rfl⟩
  · by_cases hc : s.wc + chunk.length ≤ s.params.cap
    · rw [feedLoop_tail hn hc] at h; cases h; exact .inr (.inl ⟨hn, hc, rfl⟩)
    · have h' := feedLoop_overflow (n := n) (rest := []) hn (.inl rfl) (by omega)
      rw [List.append_nil] at h'; rw [h'] at h; cases h
      exact .inl ⟨chunk, [], hn, .inl rfl, by simp, by omega, rfl⟩
  · by_cases hc : s.wc + seg.length ≤ s.params.cap
    · rw [feedLoop_terminator hn hc] at h
      cases hf : completeFrame (s.append seg) with
      | error f => simp [hf] at h
      | ok u =>
        refine .inr (.inr ⟨seg, rest, u, hn, rfl, hc, hf, ?_⟩)
        simp only [hf] at h
        by_cases hr : rest = []
        · simp only [hr, if_true] at h; cases h; exact .inl ⟨hr, rfl⟩
        · simp only [hr, if_false] at h; exact .inr ⟨hr, h⟩
    · rw [feedLoop_overflow hn (.inr ⟨rest, rfl⟩) (by omega)] at h; cases h
      exact .inl ⟨seg, s.cfg.endByte :: rest, hn, .inr ⟨rest, rfl⟩, rfl, by omega, rfl⟩

/-- FEED's loop leaves the configuration, the parameters, the queue and the free counter alone. -/
theorem feedLoop_frame {n : Nat} {chunk : List Byte} {s t : State} (h : feedLoop n chunk s = .next t) : FeedFrame s t := by
  induction n generalizing chunk s with
  | zero => cases h; exact ⟨rfl, rfl, rfl, rfl, rfl⟩
  | succ n ih =>
    rcases feedLoop_cases h with ⟨_, _, _, _, _, _, rfl⟩ | ⟨_, _, rfl⟩ | ⟨seg, rest, u, _, _, _, hf, ⟨_, rfl⟩ | ⟨_, h'⟩⟩
    · exact ⟨rfl, rfl, rfl, rfl, rfl⟩
    · exact ⟨rfl, rfl, rfl, rfl, rfl⟩
    · have := (completeFrame_frame hf).1
      exact ⟨this.params, this.lc, this.cfg, this.inbox, this.freeTick⟩
    · exact ((append_frame seg s).trans (completeFrame_frame hf).1).trans (ih h')

/-- More fuel than bytes makes no difference (R265): the fuel never runs out. -/
theorem feedLoop_fuel {n m : Nat} {chunk : List Byte} (s : State) (hn : chunk.length < n) (hm : chunk.length < m) :
    feedLoop n chunk s = feedLoop m chunk s := by
  induction n generalizing m chunk s with
  | zero => omega
  | succ n ih =>
    obtain ⟨m, rfl⟩ : ∃ k, m = k + 1 := ⟨m - 1, by omega⟩
    rcases chunk_cases chunk s.cfg.endByte with h | ⟨seg, rest, h, rfl⟩
    · by_cases hc : s.wc + chunk.length ≤ s.params.cap
      · rw [feedLoop_tail h hc, feedLoop_tail h hc]
      · have h1 := feedLoop_overflow (n := n) (rest := []) h (.inl rfl) (by omega)
        have h2 := feedLoop_overflow (n := m) (rest := []) h (.inl rfl) (by omega)
        rw [List.append_nil] at h1 h2; rw [h1, h2]
    · by_cases hc : s.wc + seg.length ≤ s.params.cap
      · rw [feedLoop_terminator h hc, feedLoop_terminator h hc]
        cases completeFrame (s.append seg) with
        | error f => rfl
        | ok u =>
          simp only [List.length_append, List.length_cons] at hn hm
          dsimp only
          split
          · rfl
          · exact ih u (by omega) (by omega)
      · rw [feedLoop_overflow h (.inr ⟨rest, rfl⟩) (by omega), feedLoop_overflow h (.inr ⟨rest, rfl⟩) (by omega)]

end Sys2Proof.Machine
end

