-- ==== Sys2Proof/Laws/Exec.lean ====
section
/-! SUPPORT. Everything an instruction can do when it answers a next state, said once. -/

namespace Sys2Proof.Machine

open Sys2Proof

/-- FEED and the wire symbols are the shared FEED of some chunk. -/
theorem exec_feeds {i : Instr} (h : isFeed i = true) (s : State) : ∃ chunk, exec i s = feedChunk chunk s := by
  cases i <;> simp [isFeed] at h <;> exact ⟨_, rfl⟩

/-- The four things an instruction can do: answer and change nothing else (SEND with a `WIRE` event before its answer), load a
Protocol Definition, reset, or run FEED's loop. -/
theorem exec_cases {i : Instr} {s t : State} (h : exec i s = .next t) :
    (∃ (events : List Event) (st : Status) (data : List Byte), (∀ e ∈ events, ∃ f, e = .wire f) ∧
      t = { s with trace := s.trace ++ events ++ [.resp st data] }) ∨
    (∃ op d, i = .configure op ∧ s.lc = .unconfigured ∧ buildDefinition s.params.nRulesMax op = .ok d ∧
      t = { s with cfg := s.cfg.load d, lc := .ready, trace := s.trace ++ [.resp .ok []] }) ∨
    (∃ op, i = .reset op ∧ t = s.applyReset.emit (.resp .ok [])) ∨
    (isFeed i = true ∧ s.lc = .ready ∧ ∃ chunk, feedLoop (chunk.length + 1) chunk s = .next t) := by
  have answer (st : Status) (d : List Byte) (ht : s.emit (.resp st d) = t) :
      ∃ (events : List Event) (st : Status) (data : List Byte), (∀ e ∈ events, ∃ f, e = .wire f) ∧
        t = { s with trace := s.trace ++ events ++ [.resp st data] } :=
    ⟨[], st, d, by simp, by subst ht; simp [State.emit]⟩
  by_cases hf : isFeed i = true
  · obtain ⟨chunk, hc⟩ := exec_feeds hf s
    rw [hc] at h
    rcases whenReady_cases h with ⟨_, rfl⟩ | ⟨hr, h⟩
    · exact .inl (answer _ _ rfl)
    · exact .inr (.inr (.inr ⟨hf, hr, chunk, h⟩))
  · cases i <;> simp [isFeed] at hf
    case configure op =>
      simp only [exec, execConfigure] at h
      by_cases hl : s.lc = .ready
      · simp only [hl, raise_eq] at h; exact .inl (answer _ _ (by injection h))
      · have hu : s.lc = .unconfigured := by cases hc : s.lc <;> simp_all
        simp only [hu] at h
        cases hb : buildDefinition s.params.nRulesMax op with
        | error r => simp only [hb, raise_eq] at h; exact .inl (answer _ _ (by injection h))
        | ok d =>
          simp only [hb, respond_eq] at h
          exact .inr (.inl ⟨op, d, rfl, hu, hb, by injection h with h; exact h.symm⟩)
    case encode p =>
      rcases whenReady_cases (run := fun s => respond .ok (slipEncode s.cfg p) s) h with ⟨_, rfl⟩ | ⟨_, h⟩
      · exact .inl (answer _ _ rfl)
      · exact .inl (answer _ _ (by injection h))
    case send p =>
      rcases whenReady_cases (run := fun s => respond .ok [] (s.emit (.wire (frameOf s.cfg p)))) h with ⟨_, rfl⟩ | ⟨_, h⟩
      · exact .inl (answer _ _ rfl)
      · injection h with h
        exact .inl ⟨[.wire (frameOf s.cfg p)], .ok, [], by simp, by subst h; simp [State.emit]⟩
    case decode f =>
      simp only [exec, execDecode] at h
      rcases whenReady_cases h with ⟨_, rfl⟩ | ⟨_, h⟩
      · exact .inl (answer _ _ rfl)
      · cases hd : slipDecode s.cfg f with
        | some m => simp only [hd, respond_eq] at h; exact .inl (answer _ _ (by injection h))
        | none => simp only [hd, raise_eq] at h; exact .inl (answer _ _ (by injection h))
    case readStatus => exact .inl (answer _ _ (by injection h))
    case readConfig =>
      rcases whenReady_cases (run := fun s => respond .ok s.cfg.configData s) h with ⟨_, rfl⟩ | ⟨_, h⟩
      · exact .inl (answer _ _ rfl)
      · exact .inl (answer _ _ (by injection h))
    case reset op => exact .inr (.inr (.inl ⟨op, rfl, by injection h with h; exact h.symm⟩))
    case reserved => exact .inl (answer _ _ (by injection h))

end Sys2Proof.Machine
end

