-- ==== Sys2Proof/Laws/PerInstr.lean ====
section
/-! SUPPORT. Laws made per instruction. Opcode: a command is carried as a command whose opcode is reserved exactly for the reserved
row, and a wire symbol as wire bytes (R82, R72). -/

namespace Sys2Proof.Laws.Opcode

open Sys2Proof Sys2Proof.Machine

/-- The input that carries a well-formed instruction has the format the opcode table gives its row. -/
def Statement (i : Instr) : Prop :=
  ∀ c : CfgRegs, i.wf = true →
    match encodeInput c i with
    | .command op operand => opReserved op = true ↔ i = .reserved op operand
    | .wire _ _ => ∀ op operand, decodeCommand op operand ≠ i

theorem configure (operand : List Byte) : Statement (.configure operand) := by intro c _; simp [encodeInput, opReserved]
theorem encode (payload : List Byte) : Statement (.encode payload) := by intro c _; simp [encodeInput, opReserved]
theorem send (payload : List Byte) : Statement (.send payload) := by intro c _; simp [encodeInput, opReserved]
theorem decode (body : List Byte) : Statement (.decode body) := by intro c _; simp [encodeInput, opReserved]
theorem feed (chunk : List Byte) : Statement (.feed chunk) := by intro c _; simp [encodeInput, opReserved]
theorem readStatus (operand : List Byte) : Statement (.readStatus operand) := by intro c _; simp [encodeInput, opReserved]
theorem readConfig (operand : List Byte) : Statement (.readConfig operand) := by intro c _; simp [encodeInput, opReserved]
theorem reset (operand : List Byte) : Statement (.reset operand) := by intro c _; simp [encodeInput, opReserved]
theorem reserved (op : Byte) (operand : List Byte) : Statement (.reserved op operand) := by
  intro c h; simpa [encodeInput, Instr.wf] using h

/-- A command decodes to no wire symbol. -/
theorem decodeCommand_cases (op : Byte) (operand : List Byte) :
    (∃ d, decodeCommand op operand ∈ [.configure d, .encode d, .send d, .decode d, .feed d, .readStatus d, .readConfig d, .reset d,
      .reserved op d]) := by
  refine ⟨operand, ?_⟩
  unfold decodeCommand
  split_ifs <;> simp

theorem wireLiteral (b : Byte) : Statement (.wireLiteral b) := by
  intro c _ op operand h; obtain ⟨d, hd⟩ := decodeCommand_cases op operand; simp [h] at hd
theorem wireEnd : Statement .wireEnd := by
  intro c _ op operand h; obtain ⟨d, hd⟩ := decodeCommand_cases op operand; simp [h] at hd
theorem wireEscPair (repl : Byte) : Statement (.wireEscPair repl) := by
  intro c _ op operand h; obtain ⟨d, hd⟩ := decodeCommand_cases op operand; simp [h] at hd
theorem wireEscEndDefault : Statement .wireEscEndDefault := by
  intro c _ op operand h; obtain ⟨d, hd⟩ := decodeCommand_cases op operand; simp [h] at hd
theorem wireEscEscDefault : Statement .wireEscEscDefault := by
  intro c _ op operand h; obtain ⟨d, hd⟩ := decodeCommand_cases op operand; simp [h] at hd
theorem wireInvalidEscLast : Statement .wireInvalidEscLast := by
  intro c _ op operand h; obtain ⟨d, hd⟩ := decodeCommand_cases op operand; simp [h] at hd
theorem wireInvalidEscOther (x : Byte) : Statement (.wireInvalidEscOther x) := by
  intro c _ op operand h; obtain ⟨d, hd⟩ := decodeCommand_cases op operand; simp [h] at hd

end Sys2Proof.Laws.Opcode
end

