-- ==== Sys2Proof/Tests/Slice0.lean ====
section
/-! SUPPORT. The model's own tests. Expected results are the vectors of spec/95_test_vectors.md, named in each comment, or are read
off the encodings of 30_encoding.md. The witnesses of the statements are in Witnesses.lean. -/

namespace Sys2Proof.Tests

open Sys2Proof Sys2Proof.Machine Sys2Proof.Config

/-! ## States -/

/-- `CAP = 4`, `NRULES_MAX = 2`. -/
def small : Params := { cap := 4, nRulesMax := 2, policy := .dropCount }
/-- `S0` of the vectors. -/
def S0 : State := State.resetWith small
/-- The registers of R100. -/
def cfgD : CfgRegs := { maxLen := 256, endByte := 0xC0, escByte := 0xDB, nRules := 2, table := [⟨0xC0, 0xDC⟩, ⟨0xDB, 0xDD⟩] }
/-- The registers of `S7E`. -/
def cfg7E : CfgRegs := { maxLen := 256, endByte := 0x7E, escByte := 0x7D, nRules := 2, table := [⟨0x7E, 0x5E⟩, ⟨0x7D, 0x5D⟩] }
/-- `SD` of the vectors, with `CAP = 4` (`SD4`). -/
def SD : State := { S0 with lc := .ready, cfg := cfgD }
def S7E : State := { S0 with lc := .ready, cfg := cfg7E }
/-- `SD` with the pending frame `[01 DB]`. -/
def SP : State := { SD with acc := [(0, 0x01), (1, 0xDB)], wc := 2 }
/-- `SD` with the pending frame `[01]`. -/
def S1 : State := { SD with acc := [(0, 0x01)], wc := 1 }

/-- The events of one instruction from a state with an empty trace. -/
def events (i : Instr) (s : State) : Option (List Event) :=
  match exec i s with
  | .next t => some t.trace
  | .fault _ | .refused _ => none

/-- `{LC, WC, MC, OC, pend}`, as the vectors write a state. -/
structure Seen where
  lc : Lifecycle
  wc : Nat
  mc : Word32
  oc : Word32
  pend : Option (List Byte)
  deriving DecidableEq, Repr

/-- What the vectors show of the state after one instruction. -/
def endState (i : Instr) (s : State) : Option Seen :=
  match exec i s with
  | .next t => some ⟨t.lc, t.wc, t.malformedCount, t.overflowCount, t.pending⟩
  | .fault _ | .refused _ => none

/-! ## Instructions -/

/-- C-01 and W8-2: `CONFIGURE DEFAULT`, then the registers. -/
theorem test_configure_default : (match exec (.configure configureDefaultOperand) S0 with
    | .next t => some (t.lc, t.cfg) | .fault _ | .refused _ => none) = some (.ready, cfgD) := by decide
/-- C-20: reason 01 before 04. -/
theorem test_configure_lowest_reason :
    events (.configure [0x14, 0, 0, 0, 0, 0, 0xC0, 0]) S0 = some [.resp .configError [0x01]] := by decide
/-- E-04. -/
theorem test_encode_frag_bytes : events (.encode [0xC0, 0xDB, 0xC0]) SD =
    some [.resp .ok [0xDB, 0xDC, 0xDB, 0xDD, 0xDB, 0xDC]] := by decide
/-- E-08. -/
theorem test_encode_other_definition : events (.encode [0xC0, 0xDB]) S7E = some [.resp .ok [0xC0, 0xDB]] := by decide
/-- S-01. -/
theorem test_send : events (.send [0x01, 0xC0, 0x02]) SD =
    some [.wire [0x01, 0xDB, 0xDC, 0x02, 0xC0], .resp .ok []] := by decide
/-- D-06. -/
theorem test_decode_two_pairs : events (.decode [0xDB, 0xDD, 0xDB, 0xDC]) SD = some [.resp .ok [0xDB, 0xC0]] := by decide
/-- D-05. -/
theorem test_decode_esc_esc : events (.decode [0xDB, 0xDB, 0xDC]) SD = some [.resp .malformedFrame []] := by decide
/-- W1-4: the pair split across chunks. -/
theorem test_feed_split_pair : events (.feed [0xDC, 0x02, 0xC0]) SP = some [.msg [0x01, 0xC0, 0x02], .resp .ok []] := by decide
/-- F-OVF-4: events before the overflow stand, the rest is discarded. -/
theorem test_feed_overflow : events (.feed [0x01, 0xC0, 0x02, 0x03, 0x04, 0x05, 0x06, 0xC0, 0x07, 0xC0]) SD =
    some [.msg [0x01], .resp .bufferOverflow []] := by decide
/-- W9-2. -/
theorem test_read_status : events (.readStatus []) { SD with wc := 2 } =
    some [.resp .ok [1, 2, 0, 0, 0, 0, 0, 0, 0, 0, 0, 0, 0]] := by decide
/-- F-W-1: counters at their last value. -/
theorem test_read_status_counters : events (.readStatus []) { SD with malformedCount := 0xFFFFFFFF, overflowCount := 0xFFFFFFFF } =
    some [.resp .ok [1, 0, 0, 0, 0, 0xFF, 0xFF, 0xFF, 0xFF, 0xFF, 0xFF, 0xFF, 0xFF]] := by decide
/-- K-12. -/
theorem test_read_config : events (.readConfig [0xFF]) SD =
    some [.resp .ok [0x0F, 0x00, 0x01, 0x00, 0x00, 0xC0, 0xDB, 0x02, 0x03, 0xC0, 0xDC, 0x03, 0xDB, 0xDD]] := by decide
/-- K-14: the pending frame is lost uncounted. -/
theorem test_reset : endState (.reset [0x12, 0x34]) S1 = some ⟨.unconfigured, 0, 0, 0, some []⟩ := by decide
/-- K-06. -/
theorem test_reserved : events (.reserved 0x09 [0x01]) SD = some [.resp .illegalCommand []] := by decide
/-- F-06 by symbols: a literal joins the pending frame. -/
theorem test_wire_literal : endState (.wireLiteral 0x02) S1 = some ⟨.ready, 2, 0, 0, some [0x01, 0x02]⟩ := by decide
/-- F-09: a terminator ends the pending frame. -/
theorem test_wire_end : events .wireEnd S1 = some [.msg [0x01], .resp .ok []] := by decide
/-- F-17 by symbols: the pair joins the pending frame as it is. -/
theorem test_wire_esc_pair : endState (.wireEscPair 0x5E) S7E = some ⟨.ready, 2, 0, 0, some [0x7D, 0x5E]⟩ := by decide
theorem test_wire_esc_end_default : endState .wireEscEndDefault S1 = some ⟨.ready, 3, 0, 0, some [0x01, 0xDB, 0xDC]⟩ := by decide
theorem test_wire_esc_esc_default : endState .wireEscEscDefault S1 = some ⟨.ready, 3, 0, 0, some [0x01, 0xDB, 0xDD]⟩ := by decide
/-- F-12. -/
theorem test_wire_invalid_esc_last : endState .wireInvalidEscLast SD = some ⟨.ready, 1, 0, 0, some [0xDB]⟩ := by decide
/-- F-10 by symbols. -/
theorem test_wire_invalid_esc_other : endState (.wireInvalidEscOther 0xDB) SD = some ⟨.ready, 2, 0, 0, some [0xDB, 0xDB]⟩ := by
  decide
/-- W7-4: SURFACE. -/
theorem test_surface : events (.feed [0xDB, 0xC0, 0x01, 0xC0]) { SD with params := { small with policy := .surface } } =
    some [.malformed, .msg [0x01], .resp .ok []] := by decide
/-- F-W-2: the counter wraps. -/
theorem test_malformed_count_wraps : endState (.feed [0xDB, 0xC0]) { SD with malformedCount := 0xFFFFFFFF } =
    some ⟨.ready, 0, 0, 0, some []⟩ := by decide

/-! ## Decoding -/

/-! Commands: the opcode of R82, bit by bit, then an operand. -/

theorem test_decode_configure_word : decodeInput .unconfigured cfgD (.command 0b00000001 [0xAA]) = (.configure [0xAA], none) := by decide
theorem test_decode_encode_word : decodeInput .unconfigured cfgD (.command 0b00000010 [0x01, 0xC0]) = (.encode [0x01, 0xC0], none) := by decide
theorem test_decode_send_word : decodeInput .unconfigured cfgD (.command 0b00000011 []) = (.send [], none) := by decide
theorem test_decode_decode_word : decodeInput .unconfigured cfgD (.command 0b00000100 [0xDB]) = (.decode [0xDB], none) := by decide
theorem test_decode_feed_word : decodeInput .unconfigured cfgD (.command 0b00000101 [0xC0]) = (.feed [0xC0], none) := by decide
theorem test_decode_read_status_word : decodeInput .unconfigured cfgD (.command 0b00000110 []) = (.readStatus [], none) := by decide
theorem test_decode_read_config_word : decodeInput .unconfigured cfgD (.command 0b00000111 []) = (.readConfig [], none) := by decide
theorem test_decode_reset_word : decodeInput .unconfigured cfgD (.command 0b00001000 []) = (.reset [], none) := by decide
theorem test_decode_reserved_word : decodeInput .unconfigured cfgD (.command 0b00001001 [0x01]) = (.reserved 0x09 [0x01], none) := by decide
theorem test_decode_nothing : decodeCommandBytes [] = .error .noOpcode := rfl
/-- R91: `01 | 00 00 00 00 00 00 00 00`. -/
theorem test_decode_configure_default :
    decodeCommandBytes [0x01, 0, 0, 0, 0, 0, 0, 0, 0] = .ok (.configure configureDefaultOperand) := rfl

/-! Wire symbols: the bytes of R72 to R76, under the definition the rule names. -/

theorem test_decode_wire_literal_word : decodeInput .ready cfgD (.wire 0b01000001 []) = (.wireLiteral 0x41, none) := by decide
theorem test_decode_wire_end_word : decodeInput .ready cfgD (.wire 0b11000000 []) = (.wireEnd, none) := by decide
theorem test_decode_wire_esc_end_word : decodeInput .ready cfgD (.wire 0b11011011 [0b11011100]) = (.wireEscEndDefault, none) := by
  decide
theorem test_decode_wire_esc_esc_word : decodeInput .ready cfgD (.wire 0b11011011 [0b11011101]) = (.wireEscEscDefault, none) := by
  decide
theorem test_decode_wire_esc_last_word : decodeInput .ready cfgD (.wire 0b11011011 [0b11000000]) =
    (.wireInvalidEscLast, some (.wire 0xC0 [])) := by decide
theorem test_decode_wire_esc_other_word : decodeInput .ready cfgD (.wire 0b11011011 [0b11011011]) =
    (.wireInvalidEscOther 0xDB, none) := by decide
/-- The worked expansion at the end of 30_encoding.md. -/
theorem test_record_notation :
    ConfigRecord.operand { maxLen := none, endByte := some 0x7E, escByte := some 0x7D, rules := some [⟨0x7E, 0x5E⟩, ⟨0x7D, 0x5D⟩] } =
      [0x0E, 0, 0, 0, 0, 0x7E, 0x7D, 0x02, 0x03, 0x7E, 0x5E, 0x03, 0x7D, 0x5D] := by decide
/-- R73: an escape pair under another definition is two bytes. -/
theorem test_decode_wire_pair : decodeInput .ready cfg7E (.wire 0x7D [0x5E, 0x41]) = (.wireEscPair 0x5E, some (.wire 0x41 [])) := by
  decide
theorem test_table_word_status : decodeTableWord 8 0x06 = some (.readStatus []) := by decide
theorem test_table_word_configure : decodeTableWord 8 0x01 = some (.configure [0, 0, 0, 0, 0, 0, 0, 0]) := by decide
theorem test_table_word_wire : decodeTableWord 16 0xDCDB = some .wireEscEndDefault := by decide
/-- A table word runs as the first instruction after reset. -/
theorem test_fetch_word : (match step (State.reset.withFetchWord 8 0x06) with
    | .next t => some (t.inbox, t.trace) | .fault _ | .refused _ => none) =
      some ([], [.resp .ok [0, 0, 0, 0, 0, 0, 0, 0, 0, 0, 0, 0, 0]]) := by decide

/-! ## Ill-formed terms, refused -/

theorem test_wf_refuses_command_opcode : Instr.wf (.reserved 0x05 []) = false := by decide
theorem test_wf_refuses_literal_terminator : Instr.wfUnder .ready cfgD (.wireLiteral 0xC0) = false := by decide
theorem test_wf_refuses_literal_escape : Instr.wfUnder .ready cfgD (.wireLiteral 0xDB) = false := by decide
theorem test_wf_refuses_pair_without_rule : Instr.wfUnder .ready cfg7E (.wireEscPair 0xDC) = false := by decide
theorem test_wf_refuses_pair_under_default_table : Instr.wfUnder .ready cfgD (.wireEscPair 0xDC) = false := by decide
theorem test_wf_refuses_default_pair_elsewhere : Instr.wfUnder .ready cfg7E .wireEscEndDefault = false := by decide
theorem test_wf_refuses_invalid_with_rule : Instr.wfUnder .ready cfgD (.wireInvalidEscOther 0xDC) = false := by decide
theorem test_wf_refuses_invalid_terminator : Instr.wfUnder .ready cfgD (.wireInvalidEscOther 0xC0) = false := by decide
theorem test_wf_refuses_escape_as_terminator :
    Instr.wfUnder .ready { cfgD with escByte := 0xC0 } .wireInvalidEscLast = false := by decide
theorem test_wf_refuses_wire_unconfigured : Instr.wfUnder .unconfigured cfgD .wireEnd = false := by decide

end Sys2Proof.Tests
end

