-- ==== Sys2Proof/Tests/Witnesses.lean ====
section
/-! SUPPORT. For each statement that has hypotheses, a concrete state and operands that meet all of them, clause by clause. -/

namespace Sys2Proof.Tests

open Sys2Proof Sys2Proof.Machine Sys2Proof.Config

/-! ## Legal states -/

theorem inv_S0 : S0.Inv where
  params_legal := by decide
  acc_wf := by decide
  acc_range := by decide
  wc_le_cap := by decide
  pending_written := by decide
  table_length := by decide
  nRules_le := by decide
  ready_wf := by decide
  unconfigured_wc := by decide
  pending_no_end := by decide

theorem inv_SD : SD.Inv where
  params_legal := by decide
  acc_wf := by decide
  acc_range := by decide
  wc_le_cap := by decide
  pending_written := by decide
  table_length := by decide
  nRules_le := by decide
  ready_wf := by decide
  unconfigured_wc := by decide
  pending_no_end := by decide

theorem inv_SP : SP.Inv where
  params_legal := by decide
  acc_wf := by decide
  acc_range := by decide
  wc_le_cap := by decide
  pending_written := by decide
  table_length := by decide
  nRules_le := by decide
  ready_wf := by decide
  unconfigured_wc := by decide
  pending_no_end := by decide

/-- `SP` with its buffer full: `WC = CAP`. -/
def SF : State := { SD with acc := [(0, 0x01), (1, 0x02), (2, 0x03), (3, 0x04)], wc := 4 }

theorem inv_SF : SF.Inv where
  params_legal := by decide
  acc_wf := by decide
  acc_range := by decide
  wc_le_cap := by decide
  pending_written := by decide
  table_length := by decide
  nRules_le := by decide
  ready_wf := by decide
  unconfigured_wc := by decide
  pending_no_end := by decide

/-! ## Witnesses -/

theorem witness_PowerOnStateIsLegal : small.Legal ∧ Params.default.Legal := by decide

theorem witness_StepKeepsLegalStates :
    SP.Inv ∧ ∃ t, step SP = .next t := ⟨inv_SP, SP, rfl⟩

theorem witness_EveryStepCompletes : SF.Inv := inv_SF

theorem witness_StepRunsTheDecodedInstruction :
    (Instr.wfUnder SD.lc SD.cfg .wireEnd = true ∧ { SD with inbox := [.wire 0xC0 []] }.inbox = encodeInput SD.cfg .wireEnd :: []) ∧
    { SD with inbox := [.command 0x06 []] }.inbox = .command 0x06 [] :: [] ∧
    { SD with inbox := [.wire 0xDB [0xDC, 0x01]] }.inbox = .wire 0xDB [0xDC, 0x01] :: [] ∧ SD.inbox = [] := by decide

theorem witness_DecodeOfEncodeIsTheInstruction :
    Instr.wfUnder .unconfigured cfgD (.reserved 0xFF [0x01]) = true ∧ Instr.wfUnder .ready cfgD (.wireLiteral 0xFF) = true ∧
    Instr.wfUnder .ready cfg7E (.wireEscPair 0x5D) = true ∧ Instr.wfUnder .ready cfgD .wireEscEscDefault = true ∧
    Instr.wfUnder .ready cfgD .wireInvalidEscLast = true ∧ Instr.wfUnder .ready cfgD (.wireInvalidEscOther 0x00) = true := by decide

/-- An operand that fails no check, each of the four fields absent. -/
theorem witness_ConfigureFillsUnsetFieldsFromDefaults :
    S0.params.Legal ∧ S0.lc = .unconfigured ∧ ∀ code, ¬ OperandFails S0.params.nRulesMax [0, 0, 0, 0, 0, 0, 0, 0] code := by
  refine ⟨by decide, rfl, fun code h => ?_⟩
  rcases h with ⟨-, h⟩ | ⟨-, -, h⟩ | ⟨-, -, h⟩
  · revert h; unfold OperandMalformed; decide
  · revert h; unfold RuleFieldMissing; decide
  · have hc := Definition.fails_code h
    obtain ⟨h3, h9⟩ := hc
    interval_cases code
    · revert h; show ¬ (_ > _); decide
    · revert h; show ¬ (_ = _); decide
    · rw [Definition.fails_five_iff] at h; revert h; decide
    · revert h; show ¬ ¬ ∃ r ∈ _, _; decide
    · revert h; show ¬ ¬ ∃ r ∈ _, _; decide
    · rw [Definition.fails_eight_iff] at h; revert h; decide
    · revert h; show ¬ ∃ r ∈ _, _; decide

/-- C-02, C-06 and C-11: one operand for each way to fail. Lower codes fail in none of them. -/
theorem witness_ConfigureReportsTheLowestReason_syntax :
    S0.lc = .unconfigured ∧ OperandFails 2 [0, 0, 0, 0, 0, 0, 0] 0x01 ∧ ∀ c < 0x01, ¬ OperandFails 2 [0, 0, 0, 0, 0, 0, 0] c := by
  refine ⟨rfl, .inl ⟨rfl, .inl (by decide)⟩, fun c hc h => ?_⟩
  rcases h with ⟨h, -⟩ | ⟨h, -, -⟩ | ⟨-, -, h⟩
  · omega
  · omega
  · have := (Definition.fails_code h).1; omega

theorem witness_ConfigureReportsTheLowestReason_missing :
    OperandFails 2 [8, 0, 0, 0, 0, 0, 0, 2, 3, 0xC0, 0xDC, 1, 0xDB, 0xDD] 0x02 ∧
    ∀ c < 0x02, ¬ OperandFails 2 [8, 0, 0, 0, 0, 0, 0, 2, 3, 0xC0, 0xDC, 1, 0xDB, 0xDD] c := by
  have hm : ¬ OperandMalformed [8, 0, 0, 0, 0, 0, 0, 2, 3, 0xC0, 0xDC, 1, 0xDB, 0xDD] := by unfold OperandMalformed; decide
  refine ⟨.inr (.inl ⟨rfl, hm, by unfold RuleFieldMissing; decide⟩), fun c hc h => ?_⟩
  rcases h with ⟨-, h⟩ | ⟨h, -, -⟩ | ⟨-, -, h⟩
  · exact hm h
  · omega
  · have := (Definition.fails_code h).1; omega

theorem witness_ConfigureReportsTheLowestReason_check :
    OperandFails 2 [2, 0, 0, 0, 0, 0x7E, 0, 0] 0x06 ∧ ∀ c < 0x06, ¬ OperandFails 2 [2, 0, 0, 0, 0, 0x7E, 0, 0] c := by
  have hm : ¬ OperandMalformed [2, 0, 0, 0, 0, 0x7E, 0, 0] := by unfold OperandMalformed; decide
  have hf : ¬ RuleFieldMissing [2, 0, 0, 0, 0, 0x7E, 0, 0] := by unfold RuleFieldMissing; decide
  refine ⟨.inr (.inr ⟨hm, hf, by show ¬ ∃ r ∈ _, _; decide⟩), fun c hc h => ?_⟩
  rcases h with ⟨-, h⟩ | ⟨-, -, h⟩ | ⟨-, -, h⟩
  · exact hm h
  · exact hf h
  · have h3 := (Definition.fails_code h).1
    interval_cases c
    · revert h; show ¬ (_ > _); decide
    · revert h; show ¬ (_ = _); decide
    · rw [Definition.fails_five_iff] at h; revert h; decide

theorem witness_ConfigureDefaultLoadsTheDefaults : S0.lc = .unconfigured ∧ 2 ≤ S0.params.nRulesMax := by decide

theorem witness_ConfigurationIsImmutableUntilReset :
    SD.lc = .ready ∧ (∀ operand, Instr.feed [0x01] ≠ .reset operand) ∧ ∃ t, exec (.feed [0x01]) SD = .next t :=
  ⟨rfl, (fun _ h => by cases h), _, rfl⟩

theorem witness_RecordNotationExpandsToItsDefinition :
    ((ConfigRecord.mk (some 0) none none (some (List.replicate 255 ⟨0, 0⟩))).rules.getD []).length ≤ 255 :=
  Nat.le_of_eq List.length_replicate

theorem witness_WellFormedRulesAreUnique : SD.Inv ∧ SD.lc = .ready := ⟨inv_SD, rfl⟩

theorem witness_ReadConfigAnswersTheDefinition :
    S0.lc = .unconfigured ∧ SD.lc = .ready ∧ SD.cfg.nRules.toNat ≤ SD.cfg.table.length := by decide

theorem witness_ReadConfigDataReconfigures :
    SD.Inv ∧ SD.lc = .ready ∧ S0.lc = .unconfigured ∧ S0.params = SD.params := ⟨inv_SD, rfl, rfl, rfl⟩

theorem witness_ReservedOpcodesAnswerIllegalCommand :
    (BitVec.toNat (0x00 : Byte) = 0) ∧ 9 ≤ BitVec.toNat (0x09 : Byte) ∧ 9 ≤ BitVec.toNat (0xFF : Byte) := by decide

theorem witness_LifecycleGateRefusesWithoutWriting :
    S0.lc = .unconfigured ∧ isFeed .wireEnd = true ∧ (∃ p, Instr.encode [] = .encode p) ∧ SD.lc = .ready :=
  ⟨rfl, rfl, ⟨[], rfl⟩, rfl⟩

theorem witness_EncodeAnswersTheEscapedPayload : S0.lc = .unconfigured ∧ SD.lc = .ready := by decide
theorem witness_SendEmitsOneWholeFrame : S0.lc = .unconfigured ∧ SD.lc = .ready := by decide
theorem witness_TerminatorOnlyEndsTheFrame : cfgD.WF 2 ∧ cfg7E.WF 255 := by decide
/-- The registers of vector C-25: the rule for `DB` has `REPL = CFG_ESC`. -/
def cfgC25 : CfgRegs := { cfgD with table := [⟨0xC0, 0xDC⟩, ⟨0xDB, 0xDB⟩] }
/-- C-25: a `CFG_ESC` that is a pair's second byte, and under the defaults one that is a first byte. -/
theorem witness_EscapeByteBelongsToItsPair :
    cfgC25.WF 2 ∧ slipEncode cfgC25 [0xDB, 0xC0] = [0xDB, 0xDB, 0xDB, 0xDC] ∧
    (slipEncode cfgC25 [0xDB, 0xC0])[1]? = some cfgC25.escByte ∧
    cfgD.WF 2 ∧ (slipEncode cfgD [0x01, 0xC0])[1]? = some cfgD.escByte ∧ replRule cfgD cfgD.escByte = none := by decide
theorem witness_EscapedPayloadIsItsSymbols : cfgC25.WF 2 ∧ cfgD.WF 2 := by decide
theorem witness_ReservedBytesAreEscaped :
    cfg7E.WF 2 ∧ (0x7E = cfg7E.endByte ∨ 0x7E = cfg7E.escByte) ∧ (0x7D = cfg7E.endByte ∨ 0x7D = cfg7E.escByte) := by decide
theorem witness_EncodeConcatenatesAndIsInjective : cfgD.WF 2 ∧ slipEncode cfgD [0xC0] = slipEncode cfgD [0xC0] := by decide
theorem witness_DecodeUndoesEncode : SD.lc = .ready ∧ SD.cfg.WF 2 := by decide

/-- Symbols of both kinds, and both ways to go wrong (R76). -/
theorem witness_DecodeAnswersWhatTheSymbolsStandFor :
    S0.lc = .unconfigured ∧ SD.lc = .ready ∧ (∀ y ∈ [Symbol.literal 0xC0, .pair 0, .pair 1], y.Legal SD.cfg) ∧
    MalformedAt SD.cfg [0xDB] ∧ MalformedAt SD.cfg [0xDB, 0xDB, 0xDC] := by
  refine ⟨rfl, rfl, ?_, .inl rfl, .inr ⟨0xDB, [0xDC], rfl, by decide⟩⟩
  intro y hy
  simp only [List.mem_cons, List.not_mem_nil, or_false] at hy
  rcases hy with rfl | rfl | rfl
  · show (_ : Byte) ≠ _; decide
  · show replRule _ _ = _; decide
  · show replRule _ _ = _; decide

theorem witness_MessageLengthIsBounded : slipDecode cfgD [0xDB, 0xDC, 0xDB, 0xDD] = some [0xC0, 0xDB] := by decide

/-- Room for exactly the chunk. -/
theorem witness_FeedWithoutTerminatorWaits :
    SP.lc = .ready ∧ Memory.wf SP.acc ∧ SP.cfg.endByte ∉ [(0x02 : Byte), 0x03] ∧ SP.wc + [(0x02 : Byte), 0x03].length ≤ SP.params.cap := by
  decide

/-- A message, a malformed frame, and an empty frame. -/
theorem witness_FeedTerminatorCompletesTheFrame :
    (SP.lc = .ready ∧ Memory.wf SP.acc ∧ SP.cfg.endByte ∉ [(0xDC : Byte), 0x02] ∧ SP.wc + 2 ≤ SP.params.cap ∧
      SP.pending = some [0x01, 0xDB] ∧ slipDecode SP.cfg ([0x01, 0xDB] ++ [0xDC, 0x02]) = some [0x01, 0xC0, 0x02]) ∧
    slipDecode SP.cfg ([0x01, 0xDB] ++ []) = none ∧
    (SD.lc = .ready ∧ Memory.wf SD.acc ∧ SD.pending = some [] ∧ SD.wc + 0 ≤ SD.params.cap) := by decide

theorem witness_FeedGoesOnAfterATerminator :
    SD.lc = .ready ∧ [(0x01 : Byte), 0xC0].getLast? = some SD.cfg.endByte ∧ [(0x02 : Byte)] ≠ [] ∧
    ∃ u, exec (.feed [0x01, 0xC0]) SD = .next u ∧ u.trace = [.msg [0x01]] ++ [.resp .ok []] :=
  ⟨rfl, rfl, by decide, _, rfl, by decide⟩

/-- F-OVF-7b and F-OVF-4: at the chunk's start, and after a frame. -/
theorem witness_FeedOverflowDiscardsFrameAndRest :
    (SP.lc = .ready ∧ [(0x04 : Byte), 0x05, 0x06] ++ [0xC0] ≠ [] ∧ SP.cfg.endByte ∉ [(0x04 : Byte), 0x05, 0x06] ∧
      [(0xC0 : Byte)].head? = some SP.cfg.endByte ∧ SP.wc + [(0x04 : Byte), 0x05, 0x06].length > SP.params.cap) ∧
    ∃ u : State, [(0x01 : Byte), 0xC0].getLast? = some SD.cfg.endByte ∧
      exec (.feed [0x01, 0xC0]) SD = .next { u with trace := u.trace ++ [.resp .ok []] } ∧
      u.wc + [(0x02 : Byte), 0x03, 0x04, 0x05, 0x06].length > SD.params.cap :=
  ⟨by decide, { SD with acc := [(0, 0x01)], trace := [.msg [0x01]] }, rfl, rfl, by decide⟩

theorem witness_FeedCompletesWithinTheBuffer : SF.Inv ∧ SF.lc = .ready := ⟨inv_SF, rfl⟩
theorem witness_FeedEmitsAtMostOneEventPerTerminator : SD.lc = .ready ∧ ∃ t, exec (.feed [0x01, 0xC0]) SD = .next t := ⟨rfl, _, rfl⟩
theorem witness_FeedOverflowsAtMostOnce : SF.lc = .ready ∧ ∃ t, exec (.feed [0x05]) SF = .next t := ⟨rfl, _, rfl⟩

/-- Frames of exactly the capacity. -/
theorem witness_LongChunkOfShortFramesIsFedInFull :
    SD.Inv ∧ SD.lc = .ready ∧ SD.wc = 0 ∧
    ∀ f ∈ [(0x01 : Byte), 0x02, 0x03, 0x04] :: [[0x05, 0x06, 0x07, 0x08], []], SD.cfg.endByte ∉ f ∧ f.length ≤ SD.params.cap :=
  ⟨inv_SD, rfl, rfl, by decide⟩

theorem witness_HalfCapacityPayloadArrives :
    SD.Inv ∧ SD.lc = .ready ∧ SD.wc = 0 ∧ 1 ≤ [(0xC0 : Byte), 0xDB].length ∧ 2 * [(0xC0 : Byte), 0xDB].length ≤ SD.params.cap :=
  ⟨inv_SD, rfl, rfl, by decide, by decide⟩

theorem witness_FeedIsByteSerial : SF.Inv ∧ S0.Inv := ⟨inv_SF, inv_S0⟩

/-- An answer of FEED whose last event is OK reports no overflow. -/
theorem not_overflow {t : State} {d : List Byte} (h : t.trace.getLast? = some (.resp .ok d)) : ¬ t.RespondedWith .bufferOverflow := by
  rintro ⟨d', h'⟩; rw [h] at h'; cases h'

theorem witness_ChunkBoundariesMakeNoDifference :
    SD.Inv ∧ SD.lc = .ready ∧ ∃ t u v, exec (.feed [0x01, 0xDB]) SD = .next t ∧ exec (.feed [0xDC, 0x02, 0xC0]) t = .next u ∧
      exec (.feed ([0x01, 0xDB] ++ [0xDC, 0x02, 0xC0])) SD = .next v ∧ ¬ t.RespondedWith .bufferOverflow ∧
      ¬ u.RespondedWith .bufferOverflow ∧ ¬ v.RespondedWith .bufferOverflow :=
  ⟨inv_SD, rfl, _, _, _, rfl, rfl, rfl, not_overflow (d := []) (by decide), not_overflow (d := []) (by decide),
    not_overflow (d := []) (by decide)⟩

theorem witness_SentPayloadsArriveInOrder :
    SD.Inv ∧ SD.lc = .ready ∧ SD.wc = 0 ∧ { SD with wc := 3 }.lc = .ready ∧ { SD with wc := 3 }.cfg = SD.cfg ∧
    ∀ p ∈ [[(0xC0 : Byte), 0xDB], [0x01, 0x02, 0x03, 0x04]], 1 ≤ p.length ∧ (slipEncode SD.cfg p).length ≤ SD.params.cap :=
  ⟨inv_SD, rfl, rfl, rfl, rfl, by decide⟩

theorem witness_WireSymbolIsOneFeedOfItsBytes : wireSymbolBytes cfgD (.wireInvalidEscOther 0x00) = some [0xDB, 0x00] := by decide

/-- Each of the six symbols, with room for exactly its bytes where it has two. -/
theorem witness_WireSymbolJoinsThePendingFrame :
    SP.lc = .ready ∧ Memory.wf SP.acc ∧ SP.wc + 2 ≤ SP.params.cap ∧
    (wireSymbolBytes SP.cfg (.wireLiteral 0x02) = some [0x02] ∧ SP.cfg.endByte ∉ [(0x02 : Byte)]) ∧
    (wireSymbolBytes SP.cfg (.wireEscPair 0xDC) = some [0xDB, 0xDC] ∧ SP.cfg.endByte ∉ [(0xDB : Byte), 0xDC]) ∧
    wireSymbolBytes SP.cfg .wireEscEndDefault = some [0xDB, 0xDC] ∧
    (wireSymbolBytes SP.cfg .wireEscEscDefault = some [0xDB, 0xDD] ∧ SP.cfg.endByte ∉ [(0xDB : Byte), 0xDD]) ∧
    (wireSymbolBytes SP.cfg .wireInvalidEscLast = some [0xDB] ∧ SP.cfg.endByte ∉ [(0xDB : Byte)]) ∧
    (wireSymbolBytes SP.cfg (.wireInvalidEscOther 0x00) = some [0xDB, 0x00] ∧ SP.cfg.endByte ∉ [(0xDB : Byte), 0x00]) := by decide

/-- An empty frame, a message with `WC = CAP`, and a malformed frame. -/
theorem witness_WireEndEndsThePendingFrame :
    (SD.lc = .ready ∧ SD.wc ≤ SD.params.cap ∧ SD.pending = some []) ∧
    (SF.lc = .ready ∧ SF.wc ≤ SF.params.cap ∧ SF.pending = some [1, 2, 3, 4] ∧ slipDecode SF.cfg [1, 2, 3, 4] = some [1, 2, 3, 4]) ∧
    (SP.lc = .ready ∧ SP.wc ≤ SP.params.cap ∧ SP.pending = some [0x01, 0xDB] ∧ slipDecode SP.cfg [0x01, 0xDB] = none) := by decide

theorem witness_WireSymbolStandsForItsByte :
    (S1.lc = .ready ∧ S1.cfg.WF 2 ∧ Memory.wf S1.acc ∧ S1.pending = some [0x01] ∧ slipDecode S1.cfg [0x01] = some [0x01] ∧
      S1.wc + 2 ≤ S1.params.cap ∧ (0xFF : Byte) ≠ S1.cfg.endByte ∧ (0xFF : Byte) ≠ S1.cfg.escByte ∧
      escapeTableIsDefault S1.cfg = true) ∧
    (S7E.lc = .ready ∧ S7E.cfg.WF 2 ∧ Memory.wf S7E.acc ∧ S7E.pending = some [] ∧ slipDecode S7E.cfg [] = some [] ∧
      S7E.wc + 2 ≤ S7E.params.cap ∧ replRule S7E.cfg 0x5E = some 0 ∧ (0x7E : Byte) = (S7E.cfg.rule 0).frag) := by decide

theorem witness_InvalidWireEscapeDropsTheFrame :
    S1.lc = .ready ∧ S1.cfg.WF 2 ∧ Memory.wf S1.acc ∧ S1.pending = some [0x01] ∧ slipDecode S1.cfg [0x01] = some [0x01] ∧
    S1.wc + 2 ≤ S1.params.cap ∧ (0xDB : Byte) ≠ S1.cfg.endByte ∧ replRule S1.cfg 0xDB = none := by decide

theorem witness_EveryInstructionRespondsOnceAndLast :
    ∃ t, exec (.feed [0xDB, 0xC0, 0x01, 0xC0]) { SD with params := { small with policy := .surface } } = .next t := ⟨_, rfl⟩
theorem witness_ReadAndCodecCommandsChangeNoState :
    (∃ p, Instr.send [] = .encode p ∨ Instr.send [] = .send p) ∧ ∃ t, exec (.send []) SP = .next t := ⟨⟨[], .inr rfl⟩, _, rfl⟩
theorem witness_AccumulationBufferIsIsolated :
    (∃ t, exec (.decode [0x01]) SP = .next t) ∧ ∃ t, exec (.readStatus []) SP = .next t := ⟨⟨_, rfl⟩, _, rfl⟩
theorem witness_OnlyFeedAndResetChangeTheCounters :
    isFeed (.decode [0xDB]) = false ∧ (∀ operand, Instr.decode [0xDB] ≠ .reset operand) ∧ ∃ t, exec (.decode [0xDB]) SD = .next t :=
  ⟨rfl, (fun _ h => by cases h), _, rfl⟩
theorem witness_MaxMessageLengthIsNotEnforced :
    (∀ p, Instr.feed [0xC0] ≠ .configure p ∧ Instr.feed [0xC0] ≠ .readConfig p ∧ Instr.feed [0xC0] ≠ .reset p) ∧
    ∃ t, exec (.feed [0xC0]) S1 = .next t := ⟨fun _ => ⟨by simp, by simp, by simp⟩, _, rfl⟩

/-- `S0` with `CONFIGURE DEFAULT` in the queue: a step that reaches `READY`. -/
theorem witness_UnspecifiedConfigurationIsNotObservable :
    S0.params.Legal ∧ S0.lc = .unconfigured ∧
    ∃ t, step { S0 with inbox := [.command 0x01 configureDefaultOperand] } = .next t ∧ t.lc = .ready :=
  ⟨by decide, rfl, _, rfl, by decide⟩

/-- `SP` and `SP` with a stale byte at its cursor. -/
theorem witness_BytesAboveTheCursorAreNotObservable :
    SP.Inv ∧ SP.SameObs { SP with acc := [(0, 0x01), (1, 0xDB), (2, 0x77)] } ∧
      ({ SP with acc := [(0, 0x01), (1, 0xDB), (2, 0x77)] } : State).Inv ∧ ∃ t, step SP = .next t :=
  ⟨inv_SP, ⟨rfl, rfl, rfl, rfl, by decide, rfl, rfl, rfl, rfl, rfl⟩,
    { params_legal := by decide, acc_wf := by decide, acc_range := by decide, wc_le_cap := by decide, pending_written := by decide,
      table_length := by decide, nRules_le := by decide, ready_wf := by decide, unconfigured_wc := by decide,
      pending_no_end := by decide }, SP, rfl⟩

theorem witness_InstancesShareNoState : ∃ bank, bankStep 1 [SP, { SD with inbox := [.command 0x06 []] }] = .next bank := ⟨_, rfl⟩

end Sys2Proof.Tests
end

/-! PROOFS. Family 00_scope: a step runs the instruction it decodes, and a wire symbol is FEED of its bytes. First the equations of
`step`, of the decoder and of the FEED arms of `exec`, then the round trip of the encoder, then the statements. -/

namespace Sys2Proof

open Sys2Proof.Machine

/-! ## The step -/

theorem step_of_inbox_nil {s : State} (h : s.inbox = []) : step s = .next s := by simp [step, h]

theorem step_of_inbox_cons {s : State} {input : Input} {queue : List Input} (h : s.inbox = input :: queue) :
    step s = exec (decodeInput s.lc s.cfg input).1
      { s with inbox := (decodeInput s.lc s.cfg input).2.toList ++ queue } := by
  simp [step, h]

/-! ## Commands -/

/-- A reserved opcode is none of the eight commands (R82, R203). -/
theorem decodeCommand_reserved {op : Byte} (h : opReserved op = true) (operand : List Byte) :
    decodeCommand op operand = .reserved op operand := by
  have hne : ∀ code : Byte, opReserved code = false → op ≠ code := by
    rintro code hcode rfl
    simp [h] at hcode
  simp [decodeCommand, hne, opReserved]

/-! ## Wire symbols: the decoder under a configuration -/

section
variable {c : CfgRegs}

theorem escapeTableIsDefault_iff : escapeTableIsDefault c = true ↔
    c.endByte = 0xC0 ∧ c.escByte = 0xDB ∧ c.rules = Definition.default.rules := by
  simp only [escapeTableIsDefault, Bool.and_eq_true, beq_iff_eq, decide_eq_true_eq, and_assoc]
  rfl

theorem escSymbolFits_iff {x : Byte} :
    escSymbolFits c x = true ↔ c.escByte ≠ c.endByte ∧ x ≠ c.endByte := by
  simp [escSymbolFits]

theorem decodeEscape_of_none {x : Byte} (h : replRule c x = none) : decodeEscape c x = .wireInvalidEscOther x := by
  simp [decodeEscape, h]

theorem decodeEscape_of_isSome {x : Byte} (h : (replRule c x).isSome = true) (hd : escapeTableIsDefault c = false) :
    decodeEscape c x = .wireEscPair x := by
  obtain ⟨k, hk⟩ := Option.isSome_iff_exists.mp h
  simp [decodeEscape, hk, hd]

/-- The two pairs of the default escape table (R75). -/
theorem decodeEscape_default (h : escapeTableIsDefault c = true) :
    decodeEscape c 0xDC = .wireEscEndDefault ∧ decodeEscape c 0xDD = .wireEscEscDefault := by
  obtain ⟨-, -, hrules⟩ := escapeTableIsDefault_iff.mp h
  have hDC : replRule c 0xDC = some 0 := by rw [replRule, hrules]; decide
  have hDD : replRule c 0xDD = some 1 := by rw [replRule, hrules]; decide
  constructor
  · rw [decodeEscape, hDC]; simp [h]
  · rw [decodeEscape, hDD]; simp [h]

theorem decodeWire_end (rest : List Byte) : decodeWire .ready c c.endByte rest = (.wireEnd, rest) := by simp [decodeWire]

theorem decodeWire_literal {b : Byte} (hend : b ≠ c.endByte) (hesc : b ≠ c.escByte) (rest : List Byte) :
    decodeWire .ready c b rest = (.wireLiteral b, rest) := by
  simp [decodeWire, hend, hesc]

theorem decodeWire_escape_last (h : c.escByte ≠ c.endByte) : decodeWire .ready c c.escByte [] = (.wireInvalidEscLast, []) := by
  simp [decodeWire, h]

theorem decodeWire_escape {x : Byte} (h : escSymbolFits c x = true) (rest : List Byte) :
    decodeWire .ready c c.escByte (x :: rest) = (decodeEscape c x, rest) := by
  obtain ⟨hesc, hx⟩ := escSymbolFits_iff.mp h
  simp [decodeWire, hesc, hx]

/-- Under the default escape table `DB` and a byte other than `C0` are one symbol (R75). -/
theorem decodeWire_escape_default {x : Byte} (h : escapeTableIsDefault c = true) (hx : x ≠ 0xC0) (rest : List Byte) :
    decodeWire .ready c 0xDB (x :: rest) = (decodeEscape c x, rest) := by
  obtain ⟨hend, hesc, -⟩ := escapeTableIsDefault_iff.mp h
  rw [← hesc]
  refine decodeWire_escape (escSymbolFits_iff.mpr ⟨?_, ?_⟩) rest
  · rw [hend, hesc]; decide
  · rwa [hend]

end

theorem decodeInput_wire_of_decodeWire {lc : Lifecycle} {c : CfgRegs} {b : Byte} {rest : List Byte} {i : Instr}
    (h : decodeWire lc c b rest = (i, [])) : decodeInput lc c (.wire b rest) = (i, none) := by
  simp [decodeInput, h, wireInput]

/-! ## The round trip -/

/-- A well-formed instruction is what its own input decodes to, and the input is used up (R82, R72 to R76). -/
theorem decodeInput_encodeInput {lc : Lifecycle} {c : CfgRegs} {i : Instr} (h : i.wfUnder lc c = true) :
    decodeInput lc c (encodeInput c i) = (i, none) := by
  cases i with
  | configure | encode | send | decode | feed | readStatus | readConfig | reset => rfl
  | reserved op operand =>
    have hop : opReserved op = true := by simpa [Instr.wfUnder, Instr.wf] using h
    simp [encodeInput, decodeInput, decodeCommand_reserved hop]
  | wireLiteral b =>
    cases lc with
    | unconfigured => rfl
    | ready =>
      obtain ⟨hend, hesc⟩ : b ≠ c.endByte ∧ b ≠ c.escByte := by simpa [Instr.wfUnder, Instr.wf] using h
      exact decodeInput_wire_of_decodeWire (decodeWire_literal hend hesc [])
  | wireEnd =>
    cases lc with
    | unconfigured => cases h
    | ready => exact decodeInput_wire_of_decodeWire (decodeWire_end [])
  | wireEscPair repl =>
    cases lc with
    | unconfigured => cases h
    | ready =>
      obtain ⟨⟨hfits, hrule⟩, hdefault⟩ :
          (escSymbolFits c repl = true ∧ (replRule c repl).isSome = true) ∧ escapeTableIsDefault c = false := by
        simpa [Instr.wfUnder, Instr.wf] using h
      exact decodeInput_wire_of_decodeWire (by rw [decodeWire_escape hfits, decodeEscape_of_isSome hrule hdefault])
  | wireEscEndDefault =>
    cases lc with
    | unconfigured => cases h
    | ready =>
      have hdefault : escapeTableIsDefault c = true := h
      exact decodeInput_wire_of_decodeWire
        (by rw [decodeWire_escape_default hdefault (by decide), (decodeEscape_default hdefault).1])
  | wireEscEscDefault =>
    cases lc with
    | unconfigured => cases h
    | ready =>
      have hdefault : escapeTableIsDefault c = true := h
      exact decodeInput_wire_of_decodeWire
        (by rw [decodeWire_escape_default hdefault (by decide), (decodeEscape_default hdefault).2])
  | wireInvalidEscLast =>
    cases lc with
    | unconfigured => cases h
    | ready =>
      have hesc : c.escByte ≠ c.endByte := by simpa [Instr.wfUnder, Instr.wf] using h
      exact decodeInput_wire_of_decodeWire (decodeWire_escape_last hesc)
  | wireInvalidEscOther x =>
    cases lc with
    | unconfigured => cases h
    | ready =>
      obtain ⟨hfits, hrule⟩ : escSymbolFits c x = true ∧ replRule c x = none := by
        simpa [Instr.wfUnder, Instr.wf] using h
      exact decodeInput_wire_of_decodeWire (by rw [decodeWire_escape hfits, decodeEscape_of_none hrule])

/-! ## FEED and the wire symbols -/

theorem exec_feed (chunk : List Byte) (s : State) : exec (.feed chunk) s = feedChunk chunk s := rfl

theorem exec_wireEnd (s : State) : exec .wireEnd s = feedChunk [s.cfg.endByte] s := rfl

/-- The six symbols of a body run FEED's operation on their bytes (R8, R170). -/
theorem exec_of_wireSymbolBytes {s : State} {i : Instr} {bytes : List Byte} (h : wireSymbolBytes s.cfg i = some bytes) :
    exec i s = feedChunk bytes s := by
  cases i with
  | wireLiteral | wireEscPair | wireEscEndDefault | wireEscEscDefault | wireInvalidEscLast | wireInvalidEscOther =>
    cases h; rfl
  | wireEnd | configure | encode | send | decode | feed | readStatus | readConfig | reset | reserved => cases h

/-! ## The statements -/

/-- Settles O5: for a well-formed instruction by the round trip of the encoder, for an input taken as it stands by the equations of
`step` and the decoder. -/
theorem stepRunsTheDecodedInstruction : Obligations.StepRunsTheDecodedInstruction := by
  refine ⟨fun s i queue hwf hin => ?_, fun s op operand queue hin => ?_, fun s b rest queue hin => ?_, fun s hin => ?_⟩
  · rw [step_of_inbox_cons hin, decodeInput_encodeInput hwf]; rfl
  · exact step_of_inbox_cons hin
  · exact step_of_inbox_cons hin
  · exact step_of_inbox_nil hin

/-- Settles O43: a wire symbol and FEED of its bytes are the same operation on the same chunk. -/
theorem wireSymbolIsOneFeedOfItsBytes : Obligations.WireSymbolIsOneFeedOfItsBytes := by
  refine ⟨fun s i bytes h => ?_, fun s => ?_⟩
  · rw [exec_of_wireSymbolBytes h, exec_feed]
  · rw [exec_wireEnd, exec_feed]

end Sys2Proof

/-! PROOFS. Family 10_state: what a legal state is and that every step keeps it, which instructions change a counter, that the bytes
of `ACC` at and above `WC` are not observable, and that instances share no state. The legal states come first, each update of the
state with the reason it keeps them; then the states that look the same to every observer, and what an instruction answers in two of
them; then the statements. -/

namespace Sys2Proof.Machine

open Sys2Proof

/-! ## Updates that keep a state legal -/

/-- `Inv` speaks of the parameters, `LC`, the configuration registers, `ACC` and `WC` alone. -/
theorem State.Inv.of_eq_fields {s t : State} (h : s.Inv) (hparams : t.params = s.params) (hlc : t.lc = s.lc) (hcfg : t.cfg = s.cfg)
    (hacc : t.acc = s.acc) (hwc : t.wc = s.wc) : t.Inv := by
  obtain ⟨params_legal, acc_wf, acc_range, wc_le_cap, pending_written, table_length, nRules_le, ready_wf, unconfigured_wc,
    pending_no_end⟩ := h
  constructor <;> simpa only [hparams, hlc, hcfg, hacc, hwc]

theorem State.Inv.emit {s : State} (h : s.Inv) (e : Event) : (s.emit e).Inv := h.of_eq_fields rfl rfl rfl rfl rfl

theorem State.Inv.setInbox {s : State} (h : s.Inv) (queue : List Input) : State.Inv { s with inbox := queue } :=
  h.of_eq_fields rfl rfl rfl rfl rfl

/-- With nothing pending, every clause on the pending frame is empty: what FEED does when it drops or completes a frame. -/
theorem State.Inv.of_wc_zero {s t : State} (h : s.Inv) (frame : FeedFrame s t) (hacc : t.acc = s.acc) (hwc : t.wc = 0) : t.Inv where
  params_legal := frame.params ▸ h.params_legal
  acc_wf := hacc ▸ h.acc_wf
  acc_range := by rw [hacc, frame.params]; exact h.acc_range
  wc_le_cap := by omega
  pending_written := by simp [hwc]
  table_length := by rw [frame.cfg, frame.params]; exact h.table_length
  nRules_le := by rw [frame.cfg, frame.params]; exact h.nRules_le
  ready_wf := by rw [frame.lc, frame.cfg, frame.params]; exact h.ready_wf
  unconfigured_wc _ := hwc
  pending_no_end := by simp [hwc]

/-- A segment without a terminator that fits in the buffer joins the pending frame (R172, R173). -/
theorem State.Inv.append {s : State} {seg : List Byte} (h : s.Inv) (hready : s.lc = .ready) (hend : s.cfg.endByte ∉ seg)
    (hcap : s.wc + seg.length ≤ s.params.cap) : (s.append seg).Inv where
  params_legal := h.params_legal
  acc_wf := Memory.writeBytes_wf s.wc seg h.acc_wf
  acc_range p hp := by
    rcases Memory.mem_writeBytes hp with hlt | hold
    · exact Nat.lt_of_lt_of_le hlt hcap
    · exact h.acc_range p hold
  wc_le_cap := hcap
  pending_written a ha := by
    simp only [State.append] at ha ⊢
    rw [Memory.read_writeBytes _ _ _ _ h.acc_wf]
    split
    case isTrue hin => simp; omega
    case isFalse hout => exact h.pending_written a (by omega)
  table_length := h.table_length
  nRules_le := h.nRules_le
  ready_wf := h.ready_wf
  unconfigured_wc hu := by simp [State.append, hready] at hu
  pending_no_end _ a ha := by
    simp only [State.append] at ha ⊢
    rw [Memory.read_writeBytes _ _ _ _ h.acc_wf]
    split
    case isTrue hin => exact fun hb => hend (List.mem_of_getElem? hb)
    case isFalse hout => exact h.pending_no_end hready a (by omega)

theorem State.Inv.completeFrame {s t : State} (h : s.Inv) (ht : Machine.completeFrame s = .ok t) : t.Inv := by
  obtain ⟨frame, hwc, hacc, -⟩ := completeFrame_frame ht
  exact h.of_wc_zero frame hacc hwc

theorem State.Inv.dropOverflow {s : State} (h : s.Inv) : s.dropOverflow.Inv :=
  h.of_wc_zero ⟨rfl, rfl, rfl, rfl, rfl⟩ rfl rfl

/-- Every pass of FEED's loop keeps the state legal, so the whole loop does (R180, R183). -/
theorem State.Inv.feedLoop {n : Nat} {chunk : List Byte} {s t : State} (h : s.Inv) (hready : s.lc = .ready)
    (ht : Machine.feedLoop n chunk s = .next t) : t.Inv := by
  induction n generalizing chunk s with
  | zero => cases ht; exact h.emit _
  | succ n ih =>
    rcases feedLoop_cases ht with ⟨_, _, _, _, _, _, rfl⟩ | ⟨hend, hcap, rfl⟩ | ⟨seg, rest, u, hend, _, hcap, hu, hlast⟩
    · exact h.dropOverflow.emit _
    · exact (h.append hready hend hcap).emit _
    · have hu_inv : u.Inv := (h.append hready hend hcap).completeFrame hu
      rcases hlast with ⟨_, rfl⟩ | ⟨_, hgo⟩
      · exact hu_inv.emit _
      · exact ih hu_inv ((completeFrame_frame hu).1.lc.trans hready) hgo

/-- A Protocol Definition is answered only when it passes every check (R106). -/
theorem wfReason_of_buildDefinition {n : Nat} {op : List Byte} {d : Definition} (h : buildDefinition n op = .ok d) :
    wfReason n d = none := by
  unfold buildDefinition at h
  split at h
  · cases h
  · split at h
    · cases h
    · split at h
      · cases h
      · cases h; assumption

/-- A well-formed definition has at most `NRULES_MAX` rules (R104). -/
theorem rules_length_le_of_wfReason {n : Nat} {d : Definition} (h : wfReason n d = none) : d.rules.length ≤ n := by
  by_contra hgt
  simp [wfReason, Nat.lt_of_not_le hgt] at h

/-- CONFIGURE's writes (R106) keep a state legal: nothing is pending yet (R254), and the definition is well formed. -/
theorem State.Inv.configure {s : State} {d : Definition} (h : s.Inv) (hlc : s.lc = .unconfigured)
    (hwf : wfReason s.params.nRulesMax d = none) : State.Inv { s with cfg := s.cfg.load d, lc := .ready } := by
  have hlen : d.rules.length ≤ s.params.nRulesMax := rules_length_le_of_wfReason hwf
  have hbyte : d.rules.length < 256 := by have := h.params_legal.2.2; omega
  have hwc : s.wc = 0 := h.unconfigured_wc hlc
  exact
    { params_legal := h.params_legal
      acc_wf := h.acc_wf
      acc_range := h.acc_range
      wc_le_cap := h.wc_le_cap
      pending_written := h.pending_written
      table_length := by
        rw [CfgRegs.table_length_load _ _ (by rw [h.table_length]; exact hlen)]
        exact h.table_length
      nRules_le := by simpa [CfgRegs.load, Nat.mod_eq_of_lt hbyte] using hlen
      ready_wf := fun _ => by rw [CfgRegs.WF, CfgRegs.definition_load _ _ hbyte]; exact hwf
      unconfigured_wc := fun _ => hwc
      pending_no_end := by simp [hwc] }

/-- The limits of R10 and R20 stand for the unspecified registers too (log 5). -/
theorem CfgRegs.nRules_unspecified_le (p : Config.Params) (tick : Nat) :
    (CfgRegs.unspecified p tick).nRules.toNat ≤ p.nRulesMax := by
  simp only [CfgRegs.unspecified, BitVec.toNat_ofNat]
  calc Config.freeNat tick % (p.nRulesMax + 1) % 2 ^ 8
      ≤ Config.freeNat tick % (p.nRulesMax + 1) := Nat.mod_le ..
    _ ≤ p.nRulesMax := Nat.le_of_lt_succ (Nat.mod_lt _ (Nat.succ_pos _))

theorem CfgRegs.table_length_unspecified (p : Config.Params) (tick : Nat) :
    (CfgRegs.unspecified p tick).table.length = p.nRulesMax := by
  simp [CfgRegs.unspecified]

/-- RESET needs only the parameters to be legal: it empties everything else (R250). -/
theorem State.inv_applyReset {s : State} (h : s.params.Legal) : s.applyReset.Inv where
  params_legal := h
  acc_wf := List.Pairwise.nil
  acc_range := by simp
  wc_le_cap := by simp
  pending_written := by simp
  table_length := CfgRegs.table_length_unspecified ..
  nRules_le := CfgRegs.nRules_unspecified_le ..
  ready_wf := by simp
  unconfigured_wc _ := rfl
  pending_no_end := by simp

/-- Every instruction keeps a state legal. -/
theorem State.Inv.exec {i : Instr} {s t : State} (h : s.Inv) (ht : Machine.exec i s = .next t) : t.Inv := by
  rcases exec_cases ht with ⟨_, _, _, _, rfl⟩ | ⟨op, d, _, hlc, hd, rfl⟩ | ⟨_, _, rfl⟩ | ⟨_, hready, chunk, hfeed⟩
  · exact h.of_eq_fields rfl rfl rfl rfl rfl
  · exact (h.configure hlc (wfReason_of_buildDefinition hd)).of_eq_fields rfl rfl rfl rfl rfl
  · exact (State.inv_applyReset h.params_legal).emit _
  · exact h.feedLoop hready hfeed

/-! ## The pending frame -/

/-- In a legal state every byte below `WC` holds a value (R34), so the pending frame can be read. -/
theorem State.Inv.exists_pending {s : State} (h : s.Inv) : ∃ body, s.pending = some body :=
  Option.isSome_iff_exists.mp <| (Memory.readBytes_isSome_iff ..).mpr fun a _ ha => h.pending_written a (by omega)

/-- A segment joins the pending frame at its end (R172, R173). -/
theorem State.pending_append {s : State} {body : List Byte} (seg : List Byte) (hacc : s.acc.wf) (h : s.pending = some body) :
    (s.append seg).pending = some (body ++ seg) :=
  Memory.readBytes_append seg hacc h

/-- With the cursor at 0 nothing is pending, whatever `ACC` holds. -/
theorem State.pending_of_wc_zero {s : State} (h : s.wc = 0) : s.pending = some [] := by simp [State.pending, h]

/-! ## States that look the same -/

/-- The same answer to every observer: where the first completes the second does, in a state that looks the same. -/
def SameAnswer (r r' : Result) : Prop := ∀ t, r = .next t → ∃ t', r' = .next t' ∧ t.SameObs t'

theorem sameAnswer_next {t t' : State} (h : t.SameObs t') : SameAnswer (.next t) (.next t') := by
  rintro u ⟨⟩
  exact ⟨t', rfl, h⟩

section
variable {s s' : State} (h : s.SameObs s')
include h

theorem State.SameObs.emit (e : Event) : (s.emit e).SameObs (s'.emit e) :=
  { h with trace := congrArg (· ++ [e]) h.trace }

theorem State.SameObs.setInbox (queue : List Input) : State.SameObs { s with inbox := queue } { s' with inbox := queue } :=
  { h with inbox := rfl }

theorem State.SameObs.load (d : Definition) :
    State.SameObs { s with cfg := s.cfg.load d, lc := .ready } { s' with cfg := s'.cfg.load d, lc := .ready } :=
  { h with cfg := by rw [h.cfg], lc := rfl }

/-- RESET leaves no byte of `ACC` a value (R250). -/
theorem State.SameObs.applyReset : s.applyReset.SameObs s'.applyReset where
  params := h.params
  lc := rfl
  cfg := by simp [h.params, h.freeTick]
  wc := rfl
  pending := rfl
  malformedCount := rfl
  overflowCount := rfl
  inbox := h.inbox
  trace := h.trace
  freeTick := congrArg (· + 1) h.freeTick

theorem State.SameObs.clearCursor : s.clearCursor.SameObs s'.clearCursor :=
  { h with wc := rfl, pending := (State.pending_of_wc_zero rfl).trans (State.pending_of_wc_zero rfl).symm }

theorem State.SameObs.dropOverflow : s.dropOverflow.SameObs s'.dropOverflow :=
  { h.clearCursor with overflowCount := congrArg (· + 1) h.overflowCount }

theorem State.SameObs.dropMalformed : s.dropMalformed.SameObs s'.dropMalformed := by
  rw [State.dropMalformed_eq, State.dropMalformed_eq]
  exact { h with malformedCount := congrArg (· + 1) h.malformedCount, trace := by rw [h.trace, h.params] }

theorem State.SameObs.append (seg : List Byte) (hinv : s.Inv) (hinv' : s'.Inv) : (s.append seg).SameObs (s'.append seg) := by
  obtain ⟨body, hbody⟩ := hinv.exists_pending
  have hbody' : s'.pending = some body := h.pending ▸ hbody
  exact
    { h with
      wc := congrArg (· + seg.length) h.wc
      pending := by rw [State.pending_append seg hinv.acc_wf hbody, State.pending_append seg hinv'.acc_wf hbody'] }

/-! ## What an instruction answers in states that look the same -/

theorem sameAnswer_respond (st : Status) (data : List Byte) : SameAnswer (respond st data s) (respond st data s') :=
  sameAnswer_next (h.emit _)

theorem sameAnswer_raise (e : BlockError) : SameAnswer (raise e s) (raise e s') := sameAnswer_respond h _ _

/-- The gate reads `LC` alone (R204). -/
theorem sameAnswer_whenReady {run : State → Result} (hrun : s.lc = .ready → SameAnswer (run s) (run s')) :
    SameAnswer (whenReady s run) (whenReady s' run) := by
  cases hlc : s.lc with
  | unconfigured =>
    rw [whenReady_unconfigured hlc, whenReady_unconfigured (h.lc ▸ hlc)]
    exact sameAnswer_next (h.emit _)
  | ready =>
    rw [whenReady_ready hlc, whenReady_ready (h.lc ▸ hlc)]
    exact hrun hlc

/-- A gated command that answers from the configuration registers alone. -/
theorem sameAnswer_whenReady_respond (st : Status) (data : CfgRegs → List Byte) :
    SameAnswer (whenReady s fun s => respond st (data s.cfg) s) (whenReady s' fun s => respond st (data s.cfg) s) := by
  refine sameAnswer_whenReady h fun _ => ?_
  rw [h.cfg]
  exact sameAnswer_respond h _ _

theorem sameAnswer_execConfigure (operand : List Byte) : SameAnswer (execConfigure operand s) (execConfigure operand s') := by
  have hbuild : buildDefinition s'.params.nRulesMax operand = buildDefinition s.params.nRulesMax operand := by rw [h.params]
  simp only [execConfigure, ← h.lc, hbuild]
  cases s.lc with
  | ready => exact sameAnswer_raise h _
  | unconfigured =>
    cases buildDefinition s.params.nRulesMax operand with
    | error r => exact sameAnswer_raise h _
    | ok d => exact sameAnswer_respond (h.load d) _ _

theorem sameAnswer_execSend (payload : List Byte) : SameAnswer (execSend payload s) (execSend payload s') := by
  refine sameAnswer_whenReady h fun _ => ?_
  rw [h.cfg]
  exact sameAnswer_respond (h.emit _) _ _

theorem sameAnswer_execDecode (body : List Byte) : SameAnswer (execDecode body s) (execDecode body s') := by
  refine sameAnswer_whenReady h fun _ => ?_
  simp only [← h.cfg]
  cases slipDecode s.cfg body with
  | some m => exact sameAnswer_respond h _ _
  | none => exact sameAnswer_raise h _

/-- Completing a frame reads the pending frame and no other byte of `ACC` (R175). -/
theorem completeFrame_sameObs {t : State} (ht : completeFrame s = .ok t) : ∃ t', completeFrame s' = .ok t' ∧ t.SameObs t' := by
  rcases completeFrame_cases ht with ⟨hwc, rfl⟩ | ⟨body, hwc, hcap, hbody, hresult⟩
  · exact ⟨s', completeFrame_empty (h.wc ▸ hwc), h⟩
  · refine ⟨_, completeFrame_pending (h.wc ▸ hwc) (h.wc ▸ h.params ▸ hcap) (h.pending ▸ hbody), ?_⟩
    rw [← h.cfg]
    rcases hresult with ⟨m, hm, rfl⟩ | ⟨hm, rfl⟩
    · rw [hm]; exact (h.emit _).clearCursor
    · rw [hm]; exact h.dropMalformed.clearCursor

end

/-- FEED's loop overflows, waits or completes a frame in both states at once, pass by pass. -/
theorem sameAnswer_feedLoop {n : Nat} {chunk : List Byte} {s s' : State} (h : s.SameObs s') (hinv : s.Inv) (hinv' : s'.Inv)
    (hready : s.lc = .ready) : SameAnswer (feedLoop n chunk s) (feedLoop n chunk s') := by
  induction n generalizing chunk s s' with
  | zero => exact sameAnswer_respond h _ _
  | succ n ih =>
    intro t ht
    have hready' : s'.lc = .ready := h.lc ▸ hready
    rcases feedLoop_cases ht with ⟨seg, rest, hend, hrest, rfl, hover, rfl⟩ | ⟨hend, hcap, rfl⟩ |
      ⟨seg, rest, u, hend, rfl, hcap, hu, hlast⟩
    · rw [h.cfg] at hend hrest
      rw [h.wc, h.params] at hover
      exact ⟨_, feedLoop_overflow hend hrest hover, h.dropOverflow.emit _⟩
    · rw [h.cfg] at hend
      rw [h.wc, h.params] at hcap
      exact ⟨_, feedLoop_tail hend hcap, (h.append chunk hinv hinv').emit _⟩
    · have hinv_append := hinv.append hready hend hcap
      rw [h.cfg] at hend ⊢
      rw [h.wc, h.params] at hcap
      obtain ⟨u', hu', hobs⟩ := completeFrame_sameObs (h.append seg hinv hinv') hu
      rw [feedLoop_terminator hend hcap, hu']
      rcases hlast with ⟨hrest, rfl⟩ | ⟨hrest, hgo⟩
      · exact ⟨_, if_pos hrest, hobs.emit _⟩
      · simp only [if_neg hrest]
        exact ih hobs (hinv_append.completeFrame hu) ((hinv'.append hready' hend hcap).completeFrame hu')
          ((completeFrame_frame hu).1.lc.trans hready) t hgo

theorem sameAnswer_feedChunk {s s' : State} (h : s.SameObs s') (hinv : s.Inv) (hinv' : s'.Inv) (chunk : List Byte) :
    SameAnswer (feedChunk chunk s) (feedChunk chunk s') :=
  sameAnswer_whenReady h fun hready => sameAnswer_feedLoop h hinv hinv' hready

/-- No instruction reads a byte of `ACC` at or above `WC`. -/
theorem sameAnswer_exec {s s' : State} (h : s.SameObs s') (hinv : s.Inv) (hinv' : s'.Inv) (i : Instr) :
    SameAnswer (exec i s) (exec i s') := by
  cases i with
  | configure operand => exact sameAnswer_execConfigure h operand
  | encode payload => exact sameAnswer_whenReady_respond h .ok (slipEncode · payload)
  | send payload => exact sameAnswer_execSend h payload
  | decode body => exact sameAnswer_execDecode h body
  | readStatus =>
    have hdata : s.statusData = s'.statusData := by
      simp only [State.statusData, h.lc, h.wc, h.malformedCount, h.overflowCount]
    simp only [exec, execReadStatus, hdata]
    exact sameAnswer_respond h _ _
  | readConfig => exact sameAnswer_whenReady_respond h .ok CfgRegs.configData
  | reset => exact sameAnswer_respond h.applyReset _ _
  | reserved => exact sameAnswer_raise h _
  | feed chunk => exact sameAnswer_feedChunk h hinv hinv' chunk
  | wireLiteral | wireEnd | wireEscPair | wireEscEndDefault | wireEscEscDefault | wireInvalidEscLast | wireInvalidEscOther =>
    simp only [exec, execWireLiteral, execWireEnd, execWireEscPair, execWireEscEndDefault, execWireEscEscDefault,
      execWireInvalidEscLast, execWireInvalidEscOther, h.cfg]
    exact sameAnswer_feedChunk h hinv hinv' _

/-! ## Several instances -/

/-- A bank's step: nothing at a number that names no block, else that block's own step, put in its place. -/
theorem bankStep_cases {k : Nat} {bank bank' : List State} (h : bankStep k bank = .next bank') :
    (bank[k]? = none ∧ bank' = bank) ∨ ∃ s t, bank[k]? = some s ∧ step s = .next t ∧ bank' = bank.set k t := by
  unfold bankStep at h
  cases hs : bank[k]? with
  | none => simp only [hs] at h; cases h; exact .inl ⟨rfl, rfl⟩
  | some s =>
    cases ht : step s with
    | next t => simp only [hs, ht] at h; cases h; exact .inr ⟨s, t, rfl, ht, rfl⟩
    | fault f => simp [hs, ht] at h
    | refused r => simp [hs, ht] at h

end Sys2Proof.Machine

/-! ## The statements -/

namespace Sys2Proof

open Sys2Proof.Machine

/-- Settles O3: a step waits or runs an instruction, and every instruction keeps a state legal. -/
theorem stepKeepsLegalStates : Obligations.StepKeepsLegalStates := by
  intro s t hinv ht
  cases hin : s.inbox with
  | nil => rw [step_of_inbox_nil hin] at ht; cases ht; exact hinv
  | cons input queue =>
    rw [step_of_inbox_cons hin] at ht
    exact (hinv.setInbox _).exec ht

/-- Settles O51: an instruction that is neither FEED nor RESET answers or loads a definition, and neither writes a counter. -/
theorem onlyFeedAndResetChangeTheCounters : Obligations.OnlyFeedAndResetChangeTheCounters := by
  intro i s t hfeed hreset ht
  rcases exec_cases ht with ⟨_, _, _, _, rfl⟩ | ⟨_, _, _, _, _, rfl⟩ | ⟨operand, hi, _⟩ | ⟨hi, _⟩
  · exact ⟨rfl, rfl⟩
  · exact ⟨rfl, rfl⟩
  · exact absurd hi (hreset operand)
  · simp [hfeed] at hi

/-- Settles O54: the two states decode the same instruction, and no instruction reads `ACC` at or above `WC`. -/
theorem bytesAboveTheCursorAreNotObservable : Obligations.BytesAboveTheCursorAreNotObservable := by
  intro s s' t hinv hinv' h ht
  cases hin : s.inbox with
  | nil =>
    rw [step_of_inbox_nil hin] at ht
    cases ht
    exact ⟨s', step_of_inbox_nil (h.inbox ▸ hin), h⟩
  | cons input queue =>
    rw [step_of_inbox_cons hin] at ht
    have hdecode : decodeInput s'.lc s'.cfg input = decodeInput s.lc s.cfg input := by rw [h.lc, h.cfg]
    rw [step_of_inbox_cons (h.inbox ▸ hin), hdecode]
    exact sameAnswer_exec (h.setInbox _) (hinv.setInbox _) (hinv'.setInbox _) _ t ht

/-- Settles O55: a bank's step sets the one entry that steps. -/
theorem instancesShareNoState : Obligations.InstancesShareNoState := by
  intro k bank bank' h
  rcases bankStep_cases h with ⟨hk, rfl⟩ | ⟨s, t, hk, ht, rfl⟩
  · exact ⟨rfl, fun _ _ => rfl, by simp [hk]⟩
  · refine ⟨List.length_set, fun j hj => List.getElem?_set_ne hj.symm, fun s' hs' => ?_⟩
    obtain rfl : s = s' := Option.some.inj (hk.symm.trans hs')
    obtain ⟨hlt, -⟩ := List.getElem?_eq_some_iff.mp hk
    exact ⟨t, ht, List.getElem?_set_self hlt⟩

end Sys2Proof

/-! PROOFS. Family 20_memory: the accumulation buffer is isolated from every command but FEED and RESET (R61). First what an update of
`ACC` and `WC` together leaves, then what each command answers after one, then the statement. -/

namespace Sys2Proof.Machine

open Sys2Proof

/-! ## Other contents of `ACC` and `WC` -/

/-- `s` with other contents of the accumulation buffer. -/
def State.setAcc (acc : Memory) (wc : Nat) (s : State) : State := { s with acc := acc, wc := wc }

/-- The same answer but for the accumulation buffer: where the first completes the second does, in the same state with the contents
`acc` and `wc`. -/
def SameUpToAcc (acc : Memory) (wc : Nat) (r r' : Result) : Prop := ∀ t, r = .next t → r' = .next (t.setAcc acc wc)

section
variable (s : State) (acc : Memory) (wc : Nat)

@[simp] theorem State.params_setAcc : (s.setAcc acc wc).params = s.params := rfl
@[simp] theorem State.lc_setAcc : (s.setAcc acc wc).lc = s.lc := rfl
@[simp] theorem State.cfg_setAcc : (s.setAcc acc wc).cfg = s.cfg := rfl

/-! ## What a command answers with other contents there -/

theorem sameUpToAcc_respond (st : Status) (data : List Byte) :
    SameUpToAcc acc wc (respond st data s) (respond st data (s.setAcc acc wc)) := by
  rintro t ⟨⟩
  rfl

theorem sameUpToAcc_raise (e : BlockError) : SameUpToAcc acc wc (raise e s) (raise e (s.setAcc acc wc)) :=
  sameUpToAcc_respond s acc wc _ _

/-- The gate reads `LC` alone (R204). -/
theorem sameUpToAcc_whenReady {run : State → Result} (hrun : SameUpToAcc acc wc (run s) (run (s.setAcc acc wc))) :
    SameUpToAcc acc wc (whenReady s run) (whenReady (s.setAcc acc wc) run) := by
  simp only [whenReady, State.lc_setAcc]
  cases s.lc with
  | unconfigured => exact sameUpToAcc_raise s acc wc _
  | ready => exact hrun

/-- CONFIGURE reads `LC` and a parameter, and writes the configuration registers and `LC` (R106). -/
theorem sameUpToAcc_execConfigure (operand : List Byte) :
    SameUpToAcc acc wc (execConfigure operand s) (execConfigure operand (s.setAcc acc wc)) := by
  simp only [execConfigure, State.lc_setAcc, State.params_setAcc, State.cfg_setAcc]
  cases s.lc with
  | ready => exact sameUpToAcc_raise s acc wc _
  | unconfigured =>
    cases buildDefinition s.params.nRulesMax operand with
    | error r => exact sameUpToAcc_raise s acc wc _
    | ok d => exact sameUpToAcc_respond { s with cfg := s.cfg.load d, lc := .ready } acc wc _ _

theorem sameUpToAcc_execEncode (payload : List Byte) :
    SameUpToAcc acc wc (execEncode payload s) (execEncode payload (s.setAcc acc wc)) :=
  sameUpToAcc_whenReady s acc wc (sameUpToAcc_respond s acc wc _ _)

theorem sameUpToAcc_execSend (payload : List Byte) :
    SameUpToAcc acc wc (execSend payload s) (execSend payload (s.setAcc acc wc)) :=
  sameUpToAcc_whenReady s acc wc (sameUpToAcc_respond (s.emit (.wire (frameOf s.cfg payload))) acc wc _ _)

/-- DECODE scans its own operand, not the pending frame (R154). -/
theorem sameUpToAcc_execDecode (body : List Byte) :
    SameUpToAcc acc wc (execDecode body s) (execDecode body (s.setAcc acc wc)) := by
  refine sameUpToAcc_whenReady s acc wc ?_
  simp only [State.cfg_setAcc]
  cases slipDecode s.cfg body with
  | some m => exact sameUpToAcc_respond s acc wc _ _
  | none => exact sameUpToAcc_raise s acc wc _

theorem sameUpToAcc_execReadConfig (operand : List Byte) :
    SameUpToAcc acc wc (execReadConfig operand s) (execReadConfig operand (s.setAcc acc wc)) :=
  sameUpToAcc_whenReady s acc wc (sameUpToAcc_respond s acc wc _ _)

/-- READ_STATUS reads `WC` (R200; log 17), so the cursor stays as it is. -/
theorem sameUpToAcc_execReadStatus (operand : List Byte) :
    SameUpToAcc acc s.wc (execReadStatus operand s) (execReadStatus operand (s.setAcc acc s.wc)) :=
  sameUpToAcc_respond s acc s.wc _ _

theorem sameUpToAcc_execReserved (op : Byte) (operand : List Byte) :
    SameUpToAcc acc wc (execReserved op operand s) (execReserved op operand (s.setAcc acc wc)) :=
  sameUpToAcc_raise s acc wc _

end

/-- Only FEED and RESET write `ACC` or `WC` (R61). -/
theorem exec_leaves_acc_and_wc {i : Instr} {s t : State} (hfeed : isFeed i = false) (hreset : ∀ operand, i ≠ .reset operand)
    (ht : exec i s = .next t) : t.acc = s.acc ∧ t.wc = s.wc := by
  rcases exec_cases ht with ⟨_, _, _, _, rfl⟩ | ⟨_, _, _, _, _, rfl⟩ | ⟨operand, hi, _⟩ | ⟨hi, _⟩
  · exact ⟨rfl, rfl⟩
  · exact ⟨rfl, rfl⟩
  · exact absurd hi (hreset operand)
  · simp [hfeed] at hi

end Sys2Proof.Machine

/-! ## The statement -/

namespace Sys2Proof

open Sys2Proof.Machine

/-- Settles O50: command by command the answer does not depend on `ACC` and `WC` (READ_STATUS: on `ACC`), and no command here is FEED
or RESET, so none writes them. -/
theorem accumulationBufferIsIsolated : Obligations.AccumulationBufferIsIsolated := by
  refine fun i s t acc wc ht => ⟨fun hi => ⟨?_, ?_⟩, ?_⟩
  · obtain ⟨p, rfl | rfl | rfl | rfl | rfl | ⟨op, rfl⟩⟩ := hi
    · exact sameUpToAcc_execConfigure s acc wc p t ht
    · exact sameUpToAcc_execEncode s acc wc p t ht
    · exact sameUpToAcc_execSend s acc wc p t ht
    · exact sameUpToAcc_execDecode s acc wc p t ht
    · exact sameUpToAcc_execReadConfig s acc wc p t ht
    · exact sameUpToAcc_execReserved s acc wc op p t ht
  · have ⟨hfeed, hreset⟩ : isFeed i = false ∧ ∀ operand, i ≠ .reset operand := by
      obtain ⟨p, rfl | rfl | rfl | rfl | rfl | ⟨op, rfl⟩⟩ := hi <;> simp [isFeed]
    exact exec_leaves_acc_and_wc hfeed hreset ht
  · rintro ⟨p, rfl⟩
    obtain ⟨hacc, hwc⟩ := exec_leaves_acc_and_wc rfl (by simp) ht
    have hsame : exec (.readStatus p) (s.setAcc acc s.wc) = .next (t.setAcc acc t.wc) := by
      rw [hwc]
      exact sameUpToAcc_execReadStatus s acc p t ht
    exact ⟨hsame, hacc, hwc⟩

end Sys2Proof

/-! PROOFS. Family 30_encoding: the decoder and the encoder undo each other; a configuration record and READ_CONFIG's data as a
CONFIGURE operand; the wire symbols; and that every instruction responds once and last. -/

namespace Sys2Proof

open Sys2Proof.Machine

/-! ## Commands: the decoder's answer and its encoding -/

/-- The eight opcodes are matched and the rest are reserved, so opcode and operand are written back as they were read (R82). -/
theorem encodeInput_decodeCommand (c : CfgRegs) (op : Byte) (operand : List Byte) :
    encodeInput c (decodeCommand op operand) = .command op operand := by
  unfold decodeCommand
  split_ifs <;> simp [encodeInput, *]

/-- An opcode that is none of the eight is reserved (R82, R203). -/
theorem opReserved_of_ne {op : Byte} (h : op ≠ 0x01 ∧ op ≠ 0x02 ∧ op ≠ 0x03 ∧ op ≠ 0x04 ∧ op ≠ 0x05 ∧ op ≠ 0x06 ∧ op ≠ 0x07 ∧
    op ≠ 0x08) : opReserved op = true := by
  simp only [opReserved, Bool.or_eq_true, beq_iff_eq, decide_eq_true_eq]
  bv_omega

theorem wfUnder_decodeCommand (lc : Lifecycle) (c : CfgRegs) (op : Byte) (operand : List Byte) :
    (decodeCommand op operand).wfUnder lc c = true := by
  unfold decodeCommand
  split_ifs
  case neg h1 h2 h3 h4 h5 h6 h7 h8 =>
    simp [Instr.wfUnder, Instr.wf, opReserved_of_ne ⟨h1, h2, h3, h4, h5, h6, h7, h8⟩]
  all_goals simp [Instr.wfUnder, Instr.wf]

/-! ## Wire symbols: the decoder's answer and its encoding -/

section
variable {c : CfgRegs}

/-- The default escape table has the two replacements `DC` and `DD` alone (R75). -/
theorem eq_of_replRule_default {x : Byte} {k : Nat} (h : escapeTableIsDefault c = true) (hk : replRule c x = some k) :
    x = 0xDC ∨ x = 0xDD := by
  obtain ⟨-, -, hrules⟩ := escapeTableIsDefault_iff.mp h
  by_contra hx
  have hnone : replRule c x = none := by
    rw [replRule_eq_none_iff, hrules]
    simpa [Definition.default, eq_comm] using hx
  simp [hnone] at hk

/-- What `decodeEscape` reads: no replacement, one of the two default pairs, or a pair of another escape table (R74 to R76). -/
theorem decodeEscape_cases (c : CfgRegs) (x : Byte) :
    (replRule c x = none ∧ decodeEscape c x = .wireInvalidEscOther x) ∨
    (escapeTableIsDefault c = true ∧ x = 0xDC ∧ decodeEscape c x = .wireEscEndDefault) ∨
    (escapeTableIsDefault c = true ∧ x = 0xDD ∧ decodeEscape c x = .wireEscEscDefault) ∨
    ((replRule c x).isSome = true ∧ escapeTableIsDefault c = false ∧ decodeEscape c x = .wireEscPair x) := by
  cases hk : replRule c x with
  | none => exact .inl ⟨rfl, decodeEscape_of_none hk⟩
  | some k =>
    have hsome : (replRule c x).isSome = true := by simp [hk]
    cases hd : escapeTableIsDefault c with
    | false => exact .inr (.inr (.inr ⟨rfl, rfl, decodeEscape_of_isSome hsome hd⟩))
    | true =>
      rcases eq_of_replRule_default hd hk with rfl | rfl
      · exact .inr (.inl ⟨rfl, rfl, (decodeEscape_default hd).1⟩)
      · exact .inr (.inr (.inl ⟨rfl, rfl, (decodeEscape_default hd).2⟩))

theorem wfUnder_decodeEscape {x : Byte} (h : escSymbolFits c x = true) : (decodeEscape c x).wfUnder .ready c = true := by
  rcases decodeEscape_cases c x with ⟨hk, hi⟩ | ⟨hd, -, hi⟩ | ⟨hd, -, hi⟩ | ⟨hk, hd, hi⟩ <;>
    simp [Instr.wfUnder, Instr.wf, *]

/-- Whatever symbol it is, its bytes are the escape byte and `x`. -/
theorem encodeInput_decodeEscape (c : CfgRegs) (x : Byte) : encodeInput c (decodeEscape c x) = .wire c.escByte [x] := by
  rcases decodeEscape_cases c x with ⟨-, hi⟩ | ⟨hd, rfl, hi⟩ | ⟨hd, rfl, hi⟩ | ⟨-, -, hi⟩
  · simp [hi, encodeInput]
  · rw [hi, (escapeTableIsDefault_iff.mp hd).2.1]; rfl
  · rw [hi, (escapeTableIsDefault_iff.mp hd).2.1]; rfl
  · simp [hi, encodeInput]

/-- An escape byte before a terminator is a symbol of its own (R76 (a), R79). -/
theorem decodeWire_escape_end (h : c.escByte ≠ c.endByte) (rest : List Byte) :
    decodeWire .ready c c.escByte (c.endByte :: rest) = (.wireInvalidEscLast, c.endByte :: rest) := by
  simp [decodeWire, h]

end

/-- What `decodeWire` answers is right when the symbol is well formed and its bytes, with what is left, are the bytes it was given. -/
def ReadsSymbol (lc : Lifecycle) (c : CfgRegs) (bytes : List Byte) (answer : Instr × List Byte) : Prop :=
  answer.1.wfUnder lc c = true ∧ inputBytes (encodeInput c answer.1) ++ answer.2 = bytes

/-- Byte by byte as the decoder looks: the terminator, the escape byte with what follows it, any other byte (R73, R77, R79). -/
theorem readsSymbol_decodeWire (lc : Lifecycle) (c : CfgRegs) (b : Byte) (rest : List Byte) :
    ReadsSymbol lc c (b :: rest) (decodeWire lc c b rest) := by
  cases lc with
  | unconfigured => exact ⟨rfl, rfl⟩
  | ready =>
    by_cases hend : b = c.endByte
    · rw [hend, decodeWire_end]
      exact ⟨rfl, rfl⟩
    by_cases hesc : b = c.escByte
    · subst hesc
      have hlast : Instr.wireInvalidEscLast.wfUnder .ready c = true := by simpa [Instr.wfUnder, Instr.wf] using hend
      cases rest with
      | nil =>
        rw [decodeWire_escape_last hend]
        exact ⟨hlast, rfl⟩
      | cons x tail =>
        by_cases hx : x = c.endByte
        · rw [hx, decodeWire_escape_end hend]
          exact ⟨hlast, rfl⟩
        · have hfits : escSymbolFits c x = true := escSymbolFits_iff.mpr ⟨hend, hx⟩
          rw [decodeWire_escape hfits]
          exact ⟨wfUnder_decodeEscape hfits, by rw [encodeInput_decodeEscape]; rfl⟩
    · rw [decodeWire_literal hend hesc]
      exact ⟨by simpa [Instr.wfUnder, Instr.wf] using ⟨hend, hesc⟩, rfl⟩

theorem inputBytes_wireInput (bytes : List Byte) : ((wireInput bytes).map inputBytes).getD [] = bytes := by
  cases bytes <;> rfl

/-! ## The statements about the decoder -/

/-- Settles O6: the decoder is run on each word. -/
theorem opcodeMapWordsDecode : Obligations.OpcodeMapWordsDecode := by
  refine ⟨rfl, rfl, rfl, rfl, rfl, rfl, rfl, rfl, rfl, rfl, rfl, rfl, ?_⟩
  decide

/-- Settles O7: the round trip of the encoder, row by row. -/
theorem decodeOfEncodeIsTheInstruction : Obligations.DecodeOfEncodeIsTheInstruction :=
  fun _ _ _ h => decodeInput_encodeInput h

/-- Settles O8: a command uses up its input, and of wire bytes the decoder reads one symbol. -/
theorem decoderDropsNoByte : Obligations.DecoderDropsNoByte := by
  intro lc c input
  cases input with
  | command op operand =>
    refine ⟨wfUnder_decodeCommand lc c op operand, ?_⟩
    simp [decodeInput, encodeInput_decodeCommand]
  | wire b rest =>
    obtain ⟨hwf, hbytes⟩ := readsSymbol_decodeWire lc c b rest
    refine ⟨hwf, ?_⟩
    simpa [decodeInput, inputBytes_wireInput, inputBytes] using hbytes

end Sys2Proof

namespace Sys2Proof.Machine

open Sys2Proof

/-! ## Little-endian fields -/

/-- `rd_le32` reads back what `le32` wrote (00_scope.md section 5). -/
theorem rdLe32_le32 (v : Word32) :
    rdLe32 (v.extractLsb' 0 8) (v.extractLsb' 8 8) (v.extractLsb' 16 8) (v.extractLsb' 24 8) = v := by
  apply BitVec.eq_of_toNat_eq
  simp only [rdLe32, BitVec.toNat_ofNat, BitVec.extractLsb'_toNat, Nat.shiftRight_eq_div_pow]
  omega

/-- The model's `le32` is the spec's. -/
theorem le32_eq_littleEndian (v : Word32) : le32 v = littleEndian v.toNat := by
  simp [le32, littleEndian, List.range_succ, ← BitVec.toNat_inj, Nat.shiftRight_eq_div_pow]

/-! ## The rule entries of an operand -/

theorem length_entryBytes (rs : List Rule) : (rs.flatMap Rule.entryBytes).length = 3 * rs.length := by
  induction rs with
  | nil => rfl
  | cons r rs ih => simp [Rule.entryBytes, ih]; omega

/-- The three bytes of entry `k` are at `3 * k`. -/
theorem getElem?_flatMap_entryBytes {rs : List Rule} {k j : Nat} (hk : k < rs.length) (hj : j < 3) :
    (rs.flatMap Rule.entryBytes)[3 * k + j]? = (rs[k].entryBytes)[j]? := by
  induction rs generalizing k with
  | nil => simp at hk
  | cons r rs ih =>
    cases k with
    | zero =>
      match j, hj with
      | 0, _ | 1, _ | 2, _ => rfl
    | succ k =>
      have hshift : 3 * (k + 1) + j = (3 * k + j) + 3 := by omega
      rw [hshift]
      simpa [Rule.entryBytes] using ih (by simpa using hk)

/-- A given rule as an entry: both fields present, no reserved bit (R90). -/
def Rule.entry (r : Rule) : RuleEntry := { rflags := 0x03, frag := r.frag, repl := r.repl }

theorem map_entry (rs : List Rule) :
    (rs.map Rule.entry).map (fun e => ({ frag := e.frag, repl := e.repl } : Rule)) = rs := by
  rw [List.map_map]
  exact List.map_id rs

theorem splitEntries_flatMap_entryBytes (rs : List Rule) :
    splitEntries (rs.flatMap Rule.entryBytes) = some (rs.map Rule.entry) := by
  induction rs with
  | nil => rfl
  | cons r rs ih => simp [Rule.entryBytes, splitEntries, ih, Rule.entry]

/-! ## The operand of a record -/

namespace ConfigRecord
variable (r : ConfigRecord)

/-- The given rules, none when the field is absent (R90). -/
def ruleList : List Rule := r.rules.getD []

/-- `PRESENT[3:0]` says which fields are given (R84, R90). -/
theorem present_bits : r.present.getLsbD 0 = r.maxLen.isSome ∧ r.present.getLsbD 1 = r.endByte.isSome ∧
    r.present.getLsbD 2 = r.escByte.isSome ∧ r.present.getLsbD 3 = r.rules.isSome := by
  unfold present
  generalize r.maxLen.isSome = hasMaxLen, r.endByte.isSome = hasEnd, r.escByte.isSome = hasEsc, r.rules.isSome = hasRules
  revert hasMaxLen hasEnd hasEsc hasRules
  decide

/-- `PRESENT[7:4]` is clear (R84). -/
theorem present_reserved : r.present.extractLsb' 4 4 = 0#4 := by
  unfold present
  generalize r.maxLen.isSome = hasMaxLen, r.endByte.isSome = hasEnd, r.escByte.isSome = hasEsc, r.rules.isSome = hasRules
  revert hasMaxLen hasEnd hasEsc hasRules
  decide

/-- A given value, or the default where none is given (R101). -/
theorem ite_isSome_getD {α : Type} (field : Option α) (zero fallback : α) :
    (if field.isSome = true then field.getD zero else fallback) = field.getD fallback := by
  cases field <;> rfl

/-- The operand is eight header bytes and the entries (R84). -/
theorem operand_eq : r.operand = r.present :: (r.maxLen.getD 0).extractLsb' 0 8 :: (r.maxLen.getD 0).extractLsb' 8 8 ::
    (r.maxLen.getD 0).extractLsb' 16 8 :: (r.maxLen.getD 0).extractLsb' 24 8 :: r.endByte.getD 0 :: r.escByte.getD 0 ::
    BitVec.ofNat 8 r.ruleList.length :: r.ruleList.flatMap Rule.entryBytes := rfl

theorem length_operand : r.operand.length = 8 + 3 * r.ruleList.length := by
  simp only [operand_eq, List.length_cons, length_entryBytes]
  omega

theorem operand_getD_entry {k j : Nat} (hk : k < r.ruleList.length) (hj : j < 3) :
    r.operand.getD (8 + 3 * k + j) 0 = r.ruleList[k].entryBytes.getD j 0 := by
  have hshift : 8 + 3 * k + j = 3 * k + j + 8 := by omega
  rw [operand_eq, hshift, List.getD_eq_getElem?_getD, List.getD_eq_getElem?_getD, ← getElem?_flatMap_entryBytes hk hj]
  rfl

/-- `RFLAGS_k` of a given rule: both fields present (R90). -/
theorem operand_getD_rflags {k : Nat} (hk : k < r.ruleList.length) : r.operand.getD (8 + 3 * k) 0 = 0x03 :=
  r.operand_getD_entry hk (j := 0) (by decide)

/-- The operand's fields (R84). -/
def fields : ConfigOperand :=
  { present := r.present, maxLen := r.maxLen.getD 0, endByte := r.endByte.getD 0, escByte := r.escByte.getD 0,
    entries := r.ruleList.map Rule.entry }

theorem reservedClear_fields : r.fields.reservedClear = true := by
  simp [ConfigOperand.reservedClear, fields, r.present_reserved, Rule.entry]

theorem fill_fields : r.fields.fill = .ok r.filled := by
  obtain ⟨hmaxLen, hend, hesc, hrules⟩ := r.present_bits
  have hcomplete : (r.ruleList.map Rule.entry).all RuleEntry.complete = true := by
    simp [RuleEntry.complete, Rule.entry]
  simp only [ConfigOperand.fill, fields, hmaxLen, hend, hesc, hrules, hcomplete, ite_isSome_getD, map_entry]
  unfold filled ruleList
  cases r.rules <;> rfl

section
variable {r} (h : r.ruleList.length ≤ 255)
include h

theorem operand_count : (r.operand.getD 7 0).toNat = r.ruleList.length := by
  simp [operand_eq]; omega

theorem not_operandMalformed : ¬ OperandMalformed r.operand := by
  have hlen := r.length_operand
  rintro (hshort | hcount | hpresent | ⟨k, hk, hflags⟩)
  · omega
  · rw [operand_count h] at hcount; omega
  · exact hpresent r.present_reserved
  · rw [operand_count h] at hk
    rw [r.operand_getD_rflags hk] at hflags
    exact hflags (by decide)

theorem not_ruleFieldMissing : ¬ RuleFieldMissing r.operand := by
  rintro ⟨-, k, hk, hflags⟩
  rw [operand_count h] at hk
  rw [r.operand_getD_rflags hk] at hflags
  exact absurd hflags (by decide)

/-- The entries of the operand are the given rules, in order. -/
theorem operand_rules : ((List.range (r.operand.getD 7 0).toNat).map fun k =>
    ({ frag := r.operand.getD (9 + 3 * k) 0, repl := r.operand.getD (10 + 3 * k) 0 } : Rule)) = r.ruleList := by
  rw [operand_count h]
  refine List.ext_getElem (by simp) fun k _ hk => ?_
  have hfrag := r.operand_getD_entry hk (j := 1) (by decide)
  have hrepl := r.operand_getD_entry hk (j := 2) (by decide)
  rw [show 8 + 3 * k + 1 = 9 + 3 * k by omega] at hfrag
  rw [show 8 + 3 * k + 2 = 10 + 3 * k by omega] at hrepl
  simp only [List.getElem_map, List.getElem_range, hfrag, hrepl]
  rfl

/-- Field by field: the given value, or the default (R90, R101). -/
theorem filledDefinition_operand : filledDefinition r.operand = r.filled := by
  obtain ⟨hmaxLen, hend, hesc, hrules⟩ := r.present_bits
  have hle : BitVec.ofNat 32 ((r.operand.getD 1 0).toNat + 256 * (r.operand.getD 2 0).toNat
      + 65536 * (r.operand.getD 3 0).toNat + 16777216 * (r.operand.getD 4 0).toNat) = r.maxLen.getD 0 := rdLe32_le32 _
  have hpresent : r.operand.getD 0 0 = r.present := rfl
  have hendByte : r.operand.getD 5 0 = r.endByte.getD 0 := rfl
  have hescByte : r.operand.getD 6 0 = r.escByte.getD 0 := rfl
  unfold filledDefinition filled
  simp only [hle, operand_rules h, hpresent, hmaxLen, hend, hesc, hrules, hendByte, hescByte, ruleList, ite_isSome_getD]
  rfl

/-! ## What CONFIGURE builds from it -/

theorem splitConfigOperand_operand : splitConfigOperand r.operand = some r.fields := by
  have hcount : r.ruleList.length % 256 = r.ruleList.length := Nat.mod_eq_of_lt (by omega)
  simp [operand_eq, splitConfigOperand, splitEntries_flatMap_entryBytes, hcount, rdLe32_le32, fields]

/-- The checks of R104 alone decide: no record fails R102 or R103. -/
theorem buildDefinition_operand {n : Nat} (hwf : wfReason n r.filled = none) : buildDefinition n r.operand = .ok r.filled := by
  simp [buildDefinition, parseConfigOperand, splitConfigOperand_operand h, reservedClear_fields, fill_fields, hwf]

end
end ConfigRecord

/-! ## READ_CONFIG's data -/

namespace CfgRegs
variable (c : CfgRegs)

/-- The record of every field the registers hold (R87). -/
def record : ConfigRecord :=
  { maxLen := some c.maxLen, endByte := some c.endByte, escByte := some c.escByte, rules := some c.rules }

theorem length_rules_le : c.rules.length ≤ 255 := by
  have := c.nRules.isLt
  simp [rules]; omega

section
variable {c} (h : c.nRules.toNat ≤ c.table.length)
include h

theorem length_rules : c.rules.length = c.nRules.toNat := by simpa [rules] using h

theorem rules_eq_map_rule : c.rules = (List.range c.nRules.toNat).map c.rule :=
  List.ext_getElem (by simp [length_rules h]) fun k hk _ => by simp [c.rule_eq_getElem hk]

/-- The data is the operand of the record of every field (R87). -/
theorem operand_record : c.record.operand = c.configData := by
  simp [ConfigRecord.operand, ConfigRecord.present, record, configData, length_rules h]

/-- The data is laid out as R87 says. -/
theorem configData_eq_configReadout : c.configData = configReadout c := by
  simp [configData, configReadout, le32_eq_littleEndian, rules_eq_map_rule h, List.flatMap_map, Rule.entryBytes]

theorem length_configReadout : (configReadout c).length = 8 + 3 * c.nRules.toNat := by
  rw [← configData_eq_configReadout h, ← operand_record h, ConfigRecord.length_operand, ← length_rules h]
  rfl

/-- Given back as an operand, the data builds the definition it was read from (R87). -/
theorem buildDefinition_configReadout {n : Nat} (hwf : c.WF n) : buildDefinition n (configReadout c) = .ok c.definition := by
  rw [← configData_eq_configReadout h, ← operand_record h]
  exact ConfigRecord.buildDefinition_operand (r := c.record) c.length_rules_le hwf

end
end CfgRegs

/-! ## The commands -/

theorem exec_readConfig_ready {s : State} (hready : s.lc = .ready) (h : s.cfg.nRules.toNat ≤ s.cfg.table.length)
    (operand : List Byte) : exec (.readConfig operand) s = .next (s.emit (.resp .ok (configReadout s.cfg))) := by
  rw [← CfgRegs.configData_eq_configReadout h]
  exact whenReady_ready hready _

theorem exec_configure_of_buildDefinition {s : State} {op : List Byte} {d : Definition} (hlc : s.lc = .unconfigured)
    (h : buildDefinition s.params.nRulesMax op = .ok d) :
    exec (.configure op) s = .next (State.emit (.resp .ok []) { s with cfg := s.cfg.load d, lc := .ready }) := by
  simp [exec, execConfigure, hlc, h]

end Sys2Proof.Machine

namespace Sys2Proof

open Sys2Proof.Machine

/-- Settles O13: entry by entry and field by field. -/
theorem recordNotationExpandsToItsDefinition : Obligations.RecordNotationExpandsToItsDefinition := fun _ h =>
  ⟨ConfigRecord.not_operandMalformed h, ConfigRecord.not_ruleFieldMissing h, ConfigRecord.filledDefinition_operand h⟩

/-- Settles O17: READ_CONFIG's data is the operand of the record of every field, which builds the definition that the registers
hold. -/
theorem readConfigDataReconfigures : Obligations.ReadConfigDataReconfigures := by
  intro s u operand hinv hready hu hparams
  have hcount : s.cfg.nRules.toNat ≤ s.cfg.table.length := hinv.table_length ▸ hinv.nRules_le
  have hbuild : buildDefinition u.params.nRulesMax (configReadout s.cfg) = .ok s.cfg.definition :=
    CfgRegs.buildDefinition_configReadout hcount (hparams ▸ hinv.ready_wf hready)
  exact ⟨exec_readConfig_ready hready hcount operand, CfgRegs.length_configReadout hcount,
    _, exec_configure_of_buildDefinition hu hbuild, rfl, rfl,
    CfgRegs.definition_load _ _ (Nat.lt_succ_of_le s.cfg.length_rules_le)⟩

end Sys2Proof

namespace Sys2Proof.Machine

open Sys2Proof

/-! ## Rules of a well-formed configuration -/

section
variable {c : CfgRegs} {n : Nat} (hwf : c.WF n)
include hwf

theorem CfgRegs.WF.endByte_ne_escByte : c.endByte ≠ c.escByte := ((c.wf_iff n).mp hwf).2.1

/-- `REPL` is never the terminator (R104, code 0x09). -/
theorem CfgRegs.WF.repl_ne_endByte {k : Nat} (hk : k < c.rules.length) : (c.rule k).repl ≠ c.endByte := by
  obtain ⟨-, -, -, -, -, -, hrepl⟩ := (c.wf_iff n).mp hwf
  exact fun h => hrepl (h ▸ List.mem_map_of_mem (c.rule_mem hk))

/-- No two rules share a `REPL` (R104, code 0x08), so a rule's `REPL` selects it. -/
theorem CfgRegs.WF.replRule_repl {k : Nat} (hk : k < c.rules.length) : replRule c (c.rule k).repl = some k := by
  obtain ⟨-, -, -, -, -, hnodup, -⟩ := (c.wf_iff n).mp hwf
  refine (replRule_eq_some_iff c _ k).mpr ⟨hk, rfl, fun j hj heq => ?_⟩
  have hj' : j < c.rules.length := hj.trans hk
  rw [c.rule_eq_getElem hj', c.rule_eq_getElem hk] at heq
  have := (hnodup.getElem_inj_iff (i := j) (j := k) (hi := by simpa using hj') (hj := by simpa using hk)).mp (by simpa using heq)
  omega

/-- A byte that no rule escapes is no reserved byte (R104, codes 0x06 and 0x07). -/
theorem CfgRegs.WF.ne_of_fragRule_eq_none {b : Byte} (hb : fragRule c b = none) : b ≠ c.endByte ∧ b ≠ c.escByte := by
  obtain ⟨-, -, -, hend, hesc, -, -⟩ := (c.wf_iff n).mp hwf
  rw [fragRule_eq_none_iff] at hb
  constructor
  · rintro rfl
    obtain ⟨r, hr, heq⟩ := List.mem_map.mp hend
    exact hb r hr heq
  · rintro rfl
    obtain ⟨r, hr, heq⟩ := List.mem_map.mp hesc
    exact hb r hr heq

end

/-! ## The symbols of an escaped payload -/

/-- The symbol the encoder writes for a payload byte (R72, R130). -/
def Symbol.ofByte (c : CfgRegs) (b : Byte) : Symbol :=
  match fragRule c b with
  | some k => .pair k
  | none   => .literal b

section
variable {c : CfgRegs} {b : Byte}

theorem Symbol.ofByte_of_some {k : Nat} (h : fragRule c b = some k) : Symbol.ofByte c b = .pair k := by simp [ofByte, h]

theorem Symbol.ofByte_of_none (h : fragRule c b = none) : Symbol.ofByte c b = .literal b := by simp [ofByte, h]

/-- The symbol stands for the byte it is written for. -/
theorem Symbol.standsFor_ofByte (c : CfgRegs) (b : Byte) : (Symbol.ofByte c b).standsFor c = b := by
  cases h : fragRule c b with
  | none => rw [ofByte_of_none h]; rfl
  | some k => rw [ofByte_of_some h]; exact ((fragRule_eq_some_iff c b k).mp h).2.1

theorem Symbol.bytes_ofByte (c : CfgRegs) (b : Byte) : (Symbol.ofByte c b).bytes c = escapeByte c b := by
  cases h : fragRule c b with
  | none => rw [ofByte_of_none h, escapeByte_of_none c h]; rfl
  | some k => rw [ofByte_of_some h, escapeByte_of_some c h]; rfl

end

theorem slipEncode_eq_flatMap_symbols (c : CfgRegs) (p : List Byte) :
    slipEncode c p = (p.map (Symbol.ofByte c)).flatMap (Symbol.bytes c) := by
  induction p with
  | nil => rfl
  | cons b p ih => simp [ih, Symbol.bytes_ofByte]

/-- A symbol as the encoder writes it: literals and pairs are told apart by their first byte and by the rules (R73, R130). -/
structure Symbol.WellEscaped (c : CfgRegs) (y : Symbol) : Prop where
  legal : y.Legal c
  no_end : c.endByte ∉ y.bytes c
  literal_iff : fragRule c (y.standsFor c) = none ↔ ∃ b, y = .literal b
  pair_iff : (y.bytes c).head? = some c.escByte ↔ ∃ k, y = .pair k

theorem Symbol.wellEscaped_ofByte {c : CfgRegs} {n : Nat} (hwf : c.WF n) (b : Byte) : (Symbol.ofByte c b).WellEscaped c := by
  have hstands := Symbol.standsFor_ofByte c b
  cases h : fragRule c b with
  | none =>
    obtain ⟨hend, hesc⟩ := hwf.ne_of_fragRule_eq_none h
    rw [ofByte_of_none h] at hstands ⊢
    exact
      { legal := hesc
        no_end := by simpa [bytes] using hend.symm
        literal_iff := by simp [hstands, h]
        pair_iff := by simpa [bytes] using hesc }
  | some k =>
    have hk : k < c.rules.length := ((fragRule_eq_some_iff c b k).mp h).1
    rw [ofByte_of_some h] at hstands ⊢
    exact
      { legal := hwf.replRule_repl hk
        no_end := by simpa [bytes] using ⟨hwf.endByte_ne_escByte, (hwf.repl_ne_endByte hk).symm⟩
        literal_iff := by simp [hstands, h]
        pair_iff := by simp [bytes] }

/-! ## Decoding a body in two parts -/

/-- A well-formed part of a body is scanned to its end, so the scan goes on with what follows (R150). -/
theorem slipDecode_append {c : CfgRegs} {p m : List Byte} (q : List Byte) (h : slipDecode c p = some m) :
    slipDecode c (p ++ q) = (slipDecode c q).map (m ++ ·) := by
  induction p using slipDecode.induct c generalizing m with
  | case1 => cases h; simp
  | case2 => simp at h
  | case3 b hb =>
    simp only [slipDecode_literal c _ hb, slipDecode_nil, Option.map_some, Option.some.injEq] at h
    subst h
    simp [slipDecode_literal c q hb]
  | case4 x f k hk ih =>
    simp only [slipDecode_escape, hk, Option.map_eq_some_iff] at h
    obtain ⟨m', hm', rfl⟩ := h
    simp [slipDecode_escape, hk, ih hm', Function.comp_def]
  | case5 x f hk => simp [slipDecode_escape, hk] at h
  | case6 b x f hb ih =>
    rw [slipDecode_literal c _ hb, Option.map_eq_some_iff] at h
    obtain ⟨m', hm', rfl⟩ := h
    have hrest := ih hm'
    rw [List.cons_append, slipDecode_literal c _ hb, hrest]
    simp [Function.comp_def]

/-! ## A symbol, then the terminator -/

section
variable {s : State}

theorem State.append_nil : s.append [] = s := by simp [State.append]

/-- The state after a symbol has joined the pending frame and FEED has answered (R172). -/
def State.fed (bytes : List Byte) (s : State) : State := (s.append bytes).emit (.resp .ok [])

/-- A chunk without a terminator that fits (R172). -/
theorem feedChunk_tail {bytes : List Byte} (hready : s.lc = .ready) (hend : s.cfg.endByte ∉ bytes)
    (hcap : s.wc + bytes.length ≤ s.params.cap) :
    feedChunk bytes s = .next (s.fed bytes) := by
  rw [feedChunk, whenReady_ready hready, feedLoop_tail hend hcap, State.fed]

/-- The terminator alone completes the pending frame (R175, R177). -/
theorem exec_wireEnd_of_completeFrame {t : State} (hready : s.lc = .ready) (hcap : s.wc ≤ s.params.cap)
    (h : completeFrame s = .ok t) : exec .wireEnd s = .next (t.emit (.resp .ok [])) := by
  have hloop := feedLoop_terminator (n := 1) (seg := []) (rest := []) (s := s) (by simp) hcap
  rw [State.append_nil, h] at hloop
  rw [exec_wireEnd, feedChunk, whenReady_ready hready]
  exact hloop

/-- A pending frame is empty exactly when the cursor is at 0 (R33). -/
theorem State.wc_eq_zero_iff {p : List Byte} (hp : s.pending = some p) : s.wc = 0 ↔ p = [] := by
  rw [← Memory.length_of_readBytes hp, List.length_eq_zero_iff]

/-- The terminator after an empty frame (R178). -/
theorem exec_wireEnd_empty (hready : s.lc = .ready) (hwc : s.wc = 0) : exec .wireEnd s = .next (s.emit (.resp .ok [])) :=
  exec_wireEnd_of_completeFrame hready (by omega) (completeFrame_empty hwc)

section
variable {p : List Byte} (hready : s.lc = .ready) (hcap : s.wc ≤ s.params.cap) (hp : s.pending = some p) (hne : p ≠ [])
include hready hcap hp hne

/-- The terminator after a well-formed frame (R175). -/
theorem exec_wireEnd_message {m : List Byte} (hm : slipDecode s.cfg p = some m) :
    exec .wireEnd s = .next ((s.emit (.msg m)).clearCursor.emit (.resp .ok [])) := by
  have hwc : 0 < s.wc := Nat.pos_of_ne_zero (mt (State.wc_eq_zero_iff hp).mp hne)
  exact exec_wireEnd_of_completeFrame hready hcap (by rw [completeFrame_pending hwc hcap hp, hm])

/-- The terminator after a malformed frame (R176). -/
theorem exec_wireEnd_malformed (hm : slipDecode s.cfg p = none) :
    exec .wireEnd s = .next (s.dropMalformed.clearCursor.emit (.resp .ok [])) := by
  have hwc : 0 < s.wc := Nat.pos_of_ne_zero (mt (State.wc_eq_zero_iff hp).mp hne)
  exact exec_wireEnd_of_completeFrame hready hcap (by rw [completeFrame_pending hwc hcap hp, hm])

end

theorem State.pending_fed {p : List Byte} (bytes : List Byte) (hacc : s.acc.wf) (hp : s.pending = some p) :
    (s.fed bytes).pending = some (p ++ bytes) := State.pending_append bytes hacc hp

section
variable {i : Instr} {bytes : List Byte} (hready : s.lc = .ready) (hi : wireSymbolBytes s.cfg i = some bytes)
  (hend : s.cfg.endByte ∉ bytes) (hcap : s.wc + bytes.length ≤ s.params.cap)
include hready hi hend hcap

theorem exec_wireSymbol : exec i s = .next (s.fed bytes) := by
  rw [exec_of_wireSymbolBytes hi, feedChunk_tail hready hend hcap]

theorem execAll_symbol_end : execAll [i, .wireEnd] s = exec .wireEnd (s.fed bytes) := by
  simp only [execAll, exec_wireSymbol hready hi hend hcap]
  cases exec .wireEnd (s.fed bytes) <;> rfl

end
end

/-! ## What the message port shows -/

theorem streamEvents_append (xs ys : List Event) : streamEvents (xs ++ ys) = streamEvents xs ++ streamEvents ys :=
  List.filter_append ..

@[simp] theorem streamEvents_nil : streamEvents [] = [] := rfl

@[simp] theorem streamEvents_resp_cons (st : Status) (data : List Byte) (es : List Event) :
    streamEvents (.resp st data :: es) = streamEvents es := rfl

@[simp] theorem streamEvents_msg_cons (m : List Byte) (es : List Event) :
    streamEvents (.msg m :: es) = .msg m :: streamEvents es := rfl

/-- FEED's answer to a symbol shows nothing of the stream. -/
theorem streamEvents_fed (bytes : List Byte) (s : State) : streamEvents (s.fed bytes).trace = streamEvents s.trace := by
  simp [State.fed, State.append, streamEvents_append]

/-- A malformed drop shows its event under SURFACE alone (R176). -/
theorem streamEvents_dropMalformed (s : State) : streamEvents s.dropMalformed.trace =
    streamEvents s.trace ++ (if s.params.policy = .surface then [.malformed] else []) := by
  rw [State.trace_dropMalformed, streamEvents_append]
  congr 1
  split <;> rfl

/-! ## A symbol and the terminator, by what the symbol decodes to -/

section
variable {s : State} {p m bytes : List Byte} {i : Instr} (hready : s.lc = .ready) (hacc : s.acc.wf) (hp : s.pending = some p)
  (hm : slipDecode s.cfg p = some m) (hi : wireSymbolBytes s.cfg i = some bytes) (hend : s.cfg.endByte ∉ bytes)
  (hcap : s.wc + bytes.length ≤ s.params.cap) (hne : bytes ≠ [])
include hready hacc hp hm hi hend hcap hne

/-- The symbol's bytes stand for `x`: the frame is a message that ends with `x` (R72, R175). -/
theorem execAll_symbol_end_message {x : List Byte} (hx : slipDecode s.cfg bytes = some x) :
    ∃ t, execAll [i, .wireEnd] s = .next t ∧ streamEvents t.trace = streamEvents s.trace ++ [.msg (m ++ x)] ∧
      t.malformedCount = s.malformedCount ∧ t.wc = 0 := by
  have hframe : slipDecode s.cfg (p ++ bytes) = some (m ++ x) := by rw [slipDecode_append bytes hm, hx]; rfl
  have hstep := exec_wireEnd_message (s := s.fed bytes) hready hcap (State.pending_fed bytes hacc hp) (by simp [hne]) hframe
  refine ⟨_, (execAll_symbol_end hready hi hend hcap).trans hstep, ?_, rfl, rfl⟩
  simp [streamEvents_append, streamEvents_fed]

/-- The symbol is malformed: the frame is dropped and counted (R76, R176). -/
theorem execAll_symbol_end_malformed (hx : slipDecode s.cfg bytes = none) :
    ∃ t, execAll [i, .wireEnd] s = .next t ∧ t.malformedCount = s.malformedCount + 1 ∧ t.wc = 0 ∧
      streamEvents t.trace = streamEvents s.trace ++ (if s.params.policy = .surface then [.malformed] else []) := by
  have hframe : slipDecode s.cfg (p ++ bytes) = none := by rw [slipDecode_append bytes hm, hx]; rfl
  have hstep := exec_wireEnd_malformed (s := s.fed bytes) hready hcap (State.pending_fed bytes hacc hp) (by simp [hne]) hframe
  refine ⟨_, (execAll_symbol_end hready hi hend hcap).trans hstep, ?_, rfl, ?_⟩
  · simp [State.fed, State.append]
  · change streamEvents ((s.fed bytes).dropMalformed.trace ++ [.resp .ok []]) = _
    rw [streamEvents_append, streamEvents_dropMalformed, streamEvents_fed]
    exact List.append_nil _

end

/-! ## The bytes of the symbols that stand for a byte -/

section
variable {c : CfgRegs}

theorem slipDecode_literal_only {b : Byte} (h : b ≠ c.escByte) : slipDecode c [b] = some [b] := by
  simp [slipDecode_literal c [] h]

theorem slipDecode_pair {x : Byte} {k : Nat} (h : replRule c x = some k) :
    slipDecode c [c.escByte, x] = some [(c.rule k).frag] := by simp [slipDecode_escape, h]

theorem slipDecode_invalid_escape {x : Byte} (h : replRule c x = none) : slipDecode c [c.escByte, x] = none := by
  simp [slipDecode_escape, h]

/-- The two default pairs are the pairs of rules 0 and 1 (R75, R100). -/
theorem rules_of_escapeTableIsDefault (h : escapeTableIsDefault c = true) :
    c.escByte = 0xDB ∧ (replRule c 0xDC = some 0 ∧ (c.rule 0).frag = 0xC0) ∧ (replRule c 0xDD = some 1 ∧ (c.rule 1).frag = 0xDB) := by
  obtain ⟨-, hesc, hrules⟩ := escapeTableIsDefault_iff.mp h
  have hlen : c.rules.length = 2 := by rw [hrules]; rfl
  refine ⟨hesc, ⟨?_, ?_⟩, ?_, ?_⟩
  · rw [replRule, hrules]; decide
  · rw [c.rule_eq_getElem (by omega)]; simp [hrules, Definition.default]
  · rw [replRule, hrules]; decide
  · rw [c.rule_eq_getElem (by omega)]; simp [hrules, Definition.default]

end

/-! ## Responses -/

/-- `t` has `s`'s trace, then events of which none is a response. -/
def AddsNoResponse (s t : State) : Prop := ∃ events, t.trace = s.trace ++ events ∧ responses events = []

/-- `t` has `s`'s trace, then events of which none is a response, then one response (R83). -/
def RespondsOnceAndLast (s t : State) : Prop :=
  ∃ (events : List Event) (st : Status) (data : List Byte), t.trace = s.trace ++ events ++ [.resp st data] ∧ responses events = []

theorem responses_append (xs ys : List Event) : responses (xs ++ ys) = responses xs ++ responses ys := List.filter_append ..

section
variable {s t u : State}

theorem AddsNoResponse.of_trace_eq (h : t.trace = s.trace) : AddsNoResponse s t := ⟨[], by simp [h], rfl⟩

/-- A response after no other is the one response. -/
theorem AddsNoResponse.respond (h : AddsNoResponse s t) (st : Status) (data : List Byte) :
    RespondsOnceAndLast s (t.emit (.resp st data)) := by
  obtain ⟨events, htrace, hnone⟩ := h
  exact ⟨events, st, data, by simp [htrace], hnone⟩

theorem AddsNoResponse.trans (h : AddsNoResponse s t) (hu : RespondsOnceAndLast t u) : RespondsOnceAndLast s u := by
  obtain ⟨events, htrace, hnone⟩ := h
  obtain ⟨events', st, data, htrace', hnone'⟩ := hu
  exact ⟨events ++ events', st, data, by simp [htrace, htrace'], by rw [responses_append, hnone, hnone']; rfl⟩

/-- A completed frame shows a message, a drop, or nothing (R175, R176, R178). -/
theorem addsNoResponse_completeFrame (h : completeFrame s = .ok t) : AddsNoResponse s t := by
  rcases completeFrame_cases h with ⟨_, rfl⟩ | ⟨body, _, _, _, ⟨m, _, rfl⟩ | ⟨_, rfl⟩⟩
  · exact .of_trace_eq rfl
  · exact ⟨[.msg m], rfl, rfl⟩
  · exact ⟨_, s.trace_dropMalformed, by split <;> rfl⟩

/-- Only the pass that ends FEED's loop responds (R180). -/
theorem respondsOnceAndLast_feedLoop {n : Nat} {chunk : List Byte} (h : feedLoop n chunk s = .next t) : RespondsOnceAndLast s t := by
  induction n generalizing chunk s with
  | zero => cases h; exact (AddsNoResponse.of_trace_eq rfl).respond _ _
  | succ n ih =>
    rcases feedLoop_cases h with ⟨_, _, _, _, _, _, rfl⟩ | ⟨_, _, rfl⟩ | ⟨seg, rest, u, _, _, _, hu, hlast⟩
    · exact (AddsNoResponse.of_trace_eq rfl).respond _ _
    · exact (AddsNoResponse.of_trace_eq rfl).respond _ _
    · have hframe : AddsNoResponse s u := addsNoResponse_completeFrame (s := s.append seg) hu
      rcases hlast with ⟨_, rfl⟩ | ⟨_, hgo⟩
      · exact hframe.respond _ _
      · exact hframe.trans (ih hgo)

end

theorem responses_wires {events : List Event} (h : ∀ e ∈ events, ∃ f, e = .wire f) : responses events = [] := by
  refine List.filter_eq_nil_iff.mpr fun e he => ?_
  obtain ⟨f, rfl⟩ := h e he
  simp

end Sys2Proof.Machine

/-! ## The statements -/

namespace Sys2Proof

open Sys2Proof.Machine

/-- Settles O44: the symbol is FEED of its bytes, and without a terminator FEED stores them and waits. -/
theorem wireSymbolJoinsThePendingFrame : Obligations.WireSymbolJoinsThePendingFrame := by
  intro s i bytes hready hacc hi hend hcap
  exact ⟨s.fed bytes, exec_wireSymbol hready hi hend hcap, rfl, fun x => Memory.read_writeBytes s.acc s.wc x bytes hacc⟩

/-- Settles O45: an empty frame, a message, a malformed drop. -/
theorem wireEndEndsThePendingFrame : Obligations.WireEndEndsThePendingFrame := by
  intro s p hready hcap hp
  by_cases hempty : p = []
  · have hwc : s.wc = 0 := (State.wc_eq_zero_iff hp).mpr hempty
    exact ⟨_, exec_wireEnd_empty hready hwc, ⟨rfl, rfl, rfl, rfl, rfl⟩, hwc, rfl, rfl, fun _ => ⟨rfl, rfl⟩,
      fun hne => absurd hempty hne, fun hne => absurd hempty hne⟩
  cases hm : slipDecode s.cfg p with
  | some m =>
    refine ⟨_, exec_wireEnd_message hready hcap hp hempty hm, ⟨rfl, rfl, rfl, rfl, rfl⟩, rfl, rfl, rfl, fun h => absurd h hempty,
      fun _ m' hm' => ?_, by simp⟩
    cases hm'
    exact ⟨rfl, by simp⟩
  | none =>
    refine ⟨_, exec_wireEnd_malformed hready hcap hp hempty hm, ?_, rfl, ?_, ?_, fun h => absurd h hempty, by simp, fun _ _ => ?_⟩
    · simp [State.SameBesideFeed]
    · simp
    · simp
    · simp

/-- Settles O46: a literal decodes to itself, and a pair, one of the default pairs among them, to its rule's `FRAG`. -/
theorem wireSymbolStandsForItsByte : Obligations.WireSymbolStandsForItsByte := by
  intro n s p m i b hready hwf hacc hp hm hcap hsymbol
  have pair (j : Instr) (r : Byte) (k : Nat) (hj : wireSymbolBytes s.cfg j = some [s.cfg.escByte, r])
      (hk : replRule s.cfg r = some k) := by
    obtain ⟨hlt, hrepl, -⟩ := (replRule_eq_some_iff s.cfg r k).mp hk
    have hend : s.cfg.endByte ∉ [s.cfg.escByte, r] := by
      simpa using ⟨hwf.endByte_ne_escByte, fun h => hwf.repl_ne_endByte hlt (hrepl.trans h.symm)⟩
    exact execAll_symbol_end_message hready hacc hp hm hj hend hcap (by simp) (slipDecode_pair hk)
  rcases hsymbol with ⟨rfl, hend, hesc⟩ | ⟨r, k, rfl, hk, rfl⟩ | ⟨rfl, hdefault, rfl⟩ | ⟨rfl, hdefault, rfl⟩
  · exact execAll_symbol_end_message (bytes := [b]) hready hacc hp hm rfl (by simpa using hend.symm) (Nat.le_of_succ_le hcap)
      (by simp) (slipDecode_literal_only hesc)
  · exact pair _ r k rfl hk
  · obtain ⟨hesc, ⟨hk, hfrag⟩, -⟩ := rules_of_escapeTableIsDefault hdefault
    rw [← hfrag]
    exact pair _ 0xDC 0 (by rw [hesc]; rfl) hk
  · obtain ⟨hesc, -, hk, hfrag⟩ := rules_of_escapeTableIsDefault hdefault
    rw [← hfrag]
    exact pair _ 0xDD 1 (by rw [hesc]; rfl) hk

/-- Settles O47: neither invalid escape decodes, so the frame it ends does not. -/
theorem invalidWireEscapeDropsTheFrame : Obligations.InvalidWireEscapeDropsTheFrame := by
  intro n s p m i hready hwf hacc hp hm hcap hsymbol
  have hesc : s.cfg.endByte ≠ s.cfg.escByte := hwf.endByte_ne_escByte
  rcases hsymbol with rfl | ⟨x, rfl, hx, hk⟩
  · exact execAll_symbol_end_malformed (bytes := [s.cfg.escByte]) hready hacc hp hm rfl (by simpa using hesc)
      (Nat.le_of_succ_le hcap) (by simp) (slipDecode_escape_last s.cfg)
  · exact execAll_symbol_end_malformed hready hacc hp hm rfl (by simpa using ⟨hesc, hx.symm⟩) hcap (by simp)
      (slipDecode_invalid_escape hk)

/-- Settles O48: an instruction answers at once, SEND after a `WIRE` event, or runs FEED's loop, which answers at its end. -/
theorem everyInstructionRespondsOnceAndLast : Obligations.EveryInstructionRespondsOnceAndLast := by
  intro i s t ht
  rcases exec_cases ht with ⟨events, st, data, hwires, rfl⟩ | ⟨_, _, _, _, _, rfl⟩ | ⟨_, _, rfl⟩ | ⟨_, _, chunk, hfeed⟩
  · exact ⟨events, st, data, rfl, responses_wires hwires⟩
  · exact ⟨[], .ok, [], by simp, rfl⟩
  · exact ⟨[], .ok, [], by simp, rfl⟩
  · exact respondsOnceAndLast_feedLoop hfeed

/-- Settles O57: byte by byte, the symbol the encoder writes for a payload byte is a literal that no rule escapes or the pair of its
rule. -/
theorem escapedPayloadIsItsSymbols : Obligations.EscapedPayloadIsItsSymbols := by
  intro n c p hwf
  refine ⟨p.map (Symbol.ofByte c), ?_, slipEncode_eq_flatMap_symbols c p, fun y hy => ?_⟩
  · simp [Symbol.standsFor_ofByte, Function.comp_def]
  · obtain ⟨b, -, rfl⟩ := List.mem_map.mp hy
    obtain ⟨hlegal, hno_end, hliteral, hpair⟩ := Symbol.wellEscaped_ofByte hwf b
    exact ⟨hlegal, hno_end, hliteral, hpair⟩

end Sys2Proof

/-! PROOFS. Family 40_protocol_definition: CONFIGURE. First the operand's fields and the checks of R102 and R103 in terms of its
bytes, then the checks of R104 by their codes, then what CONFIGURE builds and answers, then the rules of a legal configuration, then
the statements. -/

namespace Sys2Proof.Machine

open Sys2Proof

/-! ## The fields of an operand -/

/-- The `n` rule entries at the head of `bytes`, three bytes to an entry (R84). -/
def entriesAt (bytes : List Byte) (n : Nat) : List RuleEntry :=
  (List.range n).map fun k =>
    { rflags := bytes.getD (3 * k) 0, frag := bytes.getD (3 * k + 1) 0, repl := bytes.getD (3 * k + 2) 0 }

theorem length_entriesAt (bytes : List Byte) (n : Nat) : (entriesAt bytes n).length = n := by simp [entriesAt]

theorem entriesAt_cons (r f p : Byte) (tail : List Byte) (n : Nat) :
    entriesAt (r :: f :: p :: tail) (n + 1) = { rflags := r, frag := f, repl := p } :: entriesAt tail n := by
  simp [entriesAt, List.range_succ_eq_map, Nat.mul_add]

theorem splitEntries_eq_entriesAt {bytes : List Byte} {n : Nat} (h : bytes.length = 3 * n) :
    splitEntries bytes = some (entriesAt bytes n) := by
  induction n generalizing bytes with
  | zero => obtain rfl := List.eq_nil_of_length_eq_zero h; rfl
  | succ n ih =>
    match bytes, h with
    | r :: f :: p :: tail, h =>
      have htail : tail.length = 3 * n := by simp only [List.length_cons] at h; omega
      simp [splitEntries, ih htail, entriesAt_cons]

theorem length_of_splitEntries {bytes : List Byte} {es : List RuleEntry} (h : splitEntries bytes = some es) :
    bytes.length = 3 * es.length := by
  induction bytes using splitEntries.induct generalizing es with
  | case1 => cases h; rfl
  | case2 r f p tail es' hes ih =>
    simp only [splitEntries, hes, Option.some.injEq] at h
    subst h
    simp only [List.length_cons, ih hes]
    omega
  | case3 r f p tail hnone => simp [splitEntries, hnone] at h
  | case4 bytes hnil hcons => simp [splitEntries] at h

/-- The fields of an operand, read at their places (R84). -/
def operandFields (op : List Byte) : ConfigOperand :=
  { present := op.getD 0 0, maxLen := rdLe32 (op.getD 1 0) (op.getD 2 0) (op.getD 3 0) (op.getD 4 0), endByte := op.getD 5 0,
    escByte := op.getD 6 0, entries := entriesAt (op.drop 8) (op.getD 7 0).toNat }

/-- An operand splits into its fields exactly when it has `8 + 3*N` bytes (R84). -/
theorem splitConfigOperand_eq (op : List Byte) :
    splitConfigOperand op = if op.length = 8 + 3 * (op.getD 7 0).toNat then some (operandFields op) else none := by
  match op with
  | [] | [_] | [_, _] | [_, _, _] | [_, _, _, _] | [_, _, _, _, _] | [_, _, _, _, _, _] | [_, _, _, _, _, _, _] =>
    rw [if_neg (by simp only [List.length_cons, List.length_nil]; omega)]
    rfl
  | present :: m0 :: m1 :: m2 :: m3 :: e :: c :: n :: tail =>
    have hlen : (present :: m0 :: m1 :: m2 :: m3 :: e :: c :: n :: tail).length = 8 + 3 * n.toNat ↔
        tail.length = 3 * n.toNat := by simp only [List.length_cons]; omega
    simp only [splitConfigOperand, show (present :: m0 :: m1 :: m2 :: m3 :: e :: c :: n :: tail).getD 7 0 = n from rfl, hlen]
    by_cases h : tail.length = 3 * n.toNat
    · simp only [splitEntries_eq_entriesAt h, length_entriesAt, if_pos h]
      rfl
    · rw [if_neg h]
      cases hes : splitEntries tail with
      | none => rfl
      | some es => exact if_neg fun (hn : es.length = n.toNat) => h (hn ▸ length_of_splitEntries hes)

/-! ## The checks of R102 and R103 -/

section
variable {op : List Byte}

theorem getD_drop_eight (k : Nat) : (op.drop 8).getD k 0 = op.getD (8 + k) 0 := by
  simp [List.getD_eq_getElem?_getD]

theorem forall_mem_entries_operandFields {P : Byte → Prop} : (∀ e ∈ (operandFields op).entries, P e.rflags) ↔
    ∀ k < (op.getD 7 0).toNat, P (op.getD (8 + 3 * k) 0) := by
  simp [operandFields, entriesAt]

/-- R102 in the model's order: the length, then the reserved bits. -/
theorem operandMalformed_iff : OperandMalformed op ↔
    op.length ≠ 8 + 3 * (op.getD 7 0).toNat ∨ (operandFields op).reservedClear = false := by
  have hclear : (operandFields op).reservedClear = true ↔ (op.getD 0 0).extractLsb' 4 4 = 0#4 ∧
      ∀ k < (op.getD 7 0).toNat, (op.getD (8 + 3 * k) 0).extractLsb' 2 6 = 0#6 := by
    rw [← forall_mem_entries_operandFields (P := fun b => b.extractLsb' 2 6 = 0#6)]
    simp [ConfigOperand.reservedClear, operandFields]
  rw [← Bool.not_eq_true, hclear, not_and_or]
  push Not
  unfold OperandMalformed
  constructor
  · rintro (hshort | h)
    · exact .inl (by omega)
    · exact h
  · exact .inr

theorem parseConfigOperand_of_malformed (h : OperandMalformed op) : parseConfigOperand op = .error .malformedOperand := by
  rw [parseConfigOperand, splitConfigOperand_eq]
  by_cases hlen : op.length = 8 + 3 * (op.getD 7 0).toNat
  · have hclear := (operandMalformed_iff.mp h).resolve_left (not_not_intro hlen)
    simp only [if_pos hlen, hclear, Bool.false_eq_true, if_false]
  · simp only [if_neg hlen]

theorem parseConfigOperand_of_not_malformed (h : ¬ OperandMalformed op) : parseConfigOperand op = .ok (operandFields op) := by
  rw [operandMalformed_iff, not_or, not_not, Bool.not_eq_false] at h
  obtain ⟨hlen, hclear⟩ := h
  simp only [parseConfigOperand, splitConfigOperand_eq, if_pos hlen, hclear, if_true]

theorem all_complete_operandFields : (operandFields op).entries.all RuleEntry.complete = true ↔
    ∀ k < (op.getD 7 0).toNat, (op.getD (8 + 3 * k) 0).getLsbD 0 = true ∧ (op.getD (8 + 3 * k) 0).getLsbD 1 = true := by
  rw [← forall_mem_entries_operandFields (P := fun b => b.getLsbD 0 = true ∧ b.getLsbD 1 = true)]
  simp [RuleEntry.complete]

/-- R103 in the model's form. -/
theorem ruleFieldMissing_iff : RuleFieldMissing op ↔
    (op.getD 0 0).getLsbD 3 = true ∧ (operandFields op).entries.all RuleEntry.complete = false := by
  rw [← Bool.not_eq_true (List.all ..), all_complete_operandFields]
  simp only [RuleFieldMissing, not_forall, not_and_or, Bool.not_eq_true, exists_prop]

theorem fill_of_ruleFieldMissing (h : RuleFieldMissing op) : (operandFields op).fill = .error .ruleFieldMissing := by
  obtain ⟨hpresent, hcomplete⟩ := ruleFieldMissing_iff.mp h
  have hpresent : (operandFields op).present.getLsbD 3 = true := hpresent
  simp [ConfigOperand.fill, hpresent, hcomplete]

/-- The operand's entries as rules, in the words of R101. -/
theorem rules_operandFields : ((operandFields op).entries.map fun e => ({ frag := e.frag, repl := e.repl } : Rule)) =
    (List.range (op.getD 7 0).toNat).map fun k => { frag := op.getD (9 + 3 * k) 0, repl := op.getD (10 + 3 * k) 0 } := by
  have hfrag (k : Nat) : 8 + (3 * k + 1) = 9 + 3 * k := by omega
  have hrepl (k : Nat) : 8 + (3 * k + 2) = 10 + 3 * k := by omega
  simp only [operandFields, entriesAt, List.map_map, Function.comp_def, getD_drop_eight, hfrag, hrepl]

theorem fill_of_not_ruleFieldMissing (h : ¬ RuleFieldMissing op) : (operandFields op).fill = .ok (filledDefinition op) := by
  rw [ruleFieldMissing_iff, not_and, Bool.not_eq_false] at h
  have hpresent : (operandFields op).present = op.getD 0 0 := rfl
  simp only [ConfigOperand.fill, filledDefinition, rules_operandFields, hpresent]
  by_cases hrules : (op.getD 0 0).getLsbD 3 = true
  · simp only [if_pos hrules, if_pos (h hrules)]
    rfl
  · simp only [if_neg hrules]
    rfl

end

/-! ## The checks of R104 by their codes -/

section
variable {n : Nat} {d : Definition}

/-- `wf_reason` is the checks of R104 in the order of their codes (R106). -/
theorem wfReason_eq_fails [∀ code, Decidable (d.Fails n code)] : wfReason n d =
    if d.Fails n 0x03 then some .tooManyRules
    else if d.Fails n 0x04 then some .endEqualsEsc
    else if d.Fails n 0x05 then some .duplicateFragment
    else if d.Fails n 0x06 then some .endNotCovered
    else if d.Fails n 0x07 then some .escNotCovered
    else if d.Fails n 0x08 then some .duplicateReplacement
    else if d.Fails n 0x09 then some .replacementIsEnd
    else none := by
  have h3 : d.Fails n 0x03 ↔ d.rules.length > n := Iff.rfl
  have h4 : d.Fails n 0x04 ↔ d.endByte = d.escByte := Iff.rfl
  have h6 : d.Fails n 0x06 ↔ d.endByte ∉ d.rules.map Rule.frag := not_congr List.mem_map.symm
  have h7 : d.Fails n 0x07 ↔ d.escByte ∉ d.rules.map Rule.frag := not_congr List.mem_map.symm
  have h9 : d.Fails n 0x09 ↔ d.endByte ∈ d.rules.map Rule.repl := List.mem_map.symm
  simp only [wfReason, h3, h4, Definition.fails_five_iff, h6, h7, Definition.fails_eight_iff, h9]

/-- A reason is the lowest code that fails (R105): the checks before its own passed, and no code is below 0x03. -/
theorem isLeast_fails_of_wfReason {r : ConfigReason} (h : wfReason n d = some r) : IsLeast {c | d.Fails n c} r.code.toNat := by
  classical
  rw [wfReason_eq_fails] at h
  split_ifs at h
  all_goals
    cases h
    refine ⟨‹_›, fun c hc => Nat.le_of_not_lt fun (hlt : c < BitVec.toNat _) => ?_⟩
    have hlow : 3 ≤ c := (Definition.fails_code hc).1
    simp only [ConfigReason.code, BitVec.reduceToNat] at hlt
    interval_cases c <;> contradiction

theorem not_fails_of_wfReason (h : wfReason n d = none) (code : Nat) : ¬ d.Fails n code := by
  classical
  intro hc
  obtain ⟨hlow, hhigh⟩ := Definition.fails_code hc
  rw [wfReason_eq_fails] at h
  split_ifs at h
  interval_cases code <;> contradiction

theorem wfReason_of_not_fails (h : ∀ code, ¬ d.Fails n code) : wfReason n d = none :=
  Option.eq_none_iff_forall_ne_some.mpr fun _ hr => h _ (isLeast_fails_of_wfReason hr).1

/-- The lowest failing code is the reason's code. -/
theorem exists_wfReason_of_isLeast {code : Nat} (h : IsLeast {c | d.Fails n c} code) :
    ∃ r, wfReason n d = some r ∧ r.code = BitVec.ofNat 8 code := by
  cases hr : wfReason n d with
  | none => exact absurd h.1 (not_fails_of_wfReason hr code)
  | some r =>
    have hcode : code = r.code.toNat := h.unique (isLeast_fails_of_wfReason hr)
    exact ⟨r, rfl, by simp [hcode]⟩

end

/-! ## What CONFIGURE builds -/

section
variable {n : Nat} {op : List Byte}

theorem buildDefinition_of_not_fails (h : ∀ code, ¬ OperandFails n op code) :
    buildDefinition n op = .ok (filledDefinition op) := by
  have hlayout : ¬ OperandMalformed op := fun hm => h 0x01 (.inl ⟨rfl, hm⟩)
  have hfields : ¬ RuleFieldMissing op := fun hf => h 0x02 (.inr (.inl ⟨rfl, hlayout, hf⟩))
  have hwf : wfReason n (filledDefinition op) = none :=
    wfReason_of_not_fails fun code hc => h code (.inr (.inr ⟨hlayout, hfields, hc⟩))
  simp [buildDefinition, parseConfigOperand_of_not_malformed hlayout, fill_of_not_ruleFieldMissing hfields, hwf]

/-- CONFIGURE's error carries the lowest failing code (R105). -/
theorem exists_buildDefinition_error {code : Nat} (h : OperandFails n op code) (hlow : ∀ c < code, ¬ OperandFails n op c) :
    ∃ r, buildDefinition n op = .error r ∧ r.code = BitVec.ofNat 8 code := by
  rcases h with ⟨rfl, hm⟩ | ⟨rfl, hlayout, hf⟩ | ⟨hlayout, hfields, hc⟩
  · exact ⟨.malformedOperand, by simp [buildDefinition, parseConfigOperand_of_malformed hm], rfl⟩
  · exact ⟨.ruleFieldMissing,
      by simp [buildDefinition, parseConfigOperand_of_not_malformed hlayout, fill_of_ruleFieldMissing hf], rfl⟩
  · have hleast : IsLeast {c | (filledDefinition op).Fails n c} code :=
      ⟨hc, fun c hfail => Nat.le_of_not_lt fun hlt => hlow c hlt (.inr (.inr ⟨hlayout, hfields, hfail⟩))⟩
    obtain ⟨r, hr, hcode⟩ := exists_wfReason_of_isLeast hleast
    exact ⟨r, by
      simp [buildDefinition, parseConfigOperand_of_not_malformed hlayout, fill_of_not_ruleFieldMissing hfields, hr], hcode⟩

theorem wfReason_default (h : 2 ≤ n) : wfReason n Definition.default = none := by
  have hlen : ¬ Definition.default.rules.length > n := Nat.not_lt_of_le h
  rw [wfReason, if_neg hlen]
  decide

/-- Eight zero bytes are the record that gives no field (R85, R91). -/
theorem buildDefinition_default (h : 2 ≤ n) : buildDefinition n [0, 0, 0, 0, 0, 0, 0, 0] = .ok Definition.default :=
  ConfigRecord.buildDefinition_operand (r := ⟨none, none, none, none⟩) (by decide) (wfReason_default h)

end

/-! ## What CONFIGURE writes and answers -/

section
variable (c : CfgRegs) {d : Definition} (h : d.rules.length < 256)
include h

theorem CfgRegs.nRules_toNat_load : (c.load d).nRules.toNat = d.rules.length := by
  simp [CfgRegs.load, Nat.mod_eq_of_lt h]

theorem CfgRegs.getElem?_rules_load {k : Nat} (hk : k < d.rules.length) : d.rules[k]? = some ((c.load d).rule k) := by
  have hrules := c.rules_load d h
  rw [CfgRegs.rule_eq_getElem _ (hrules ▸ hk), List.getElem?_eq_getElem hk]
  simp [hrules]

end

section
variable {s : State} {op : List Byte}

theorem exec_configure_of_buildDefinition_error {r : ConfigReason} (hlc : s.lc = .unconfigured)
    (h : buildDefinition s.params.nRulesMax op = .error r) :
    exec (.configure op) s = .next (s.emit (.resp .configError [r.code])) := by
  simp [exec, execConfigure, hlc, h, BlockError.status, BlockError.info]

theorem exec_configure_ready (hready : s.lc = .ready) :
    exec (.configure op) s = .next (s.emit (.resp .alreadyConfigured [])) := by
  simp [exec, execConfigure, hready, BlockError.status, BlockError.info]

/-- In `READY` only RESET writes a configuration register or `LC` (R107). -/
theorem exec_ready_keeps_configuration {i : Instr} {t : State} (hready : s.lc = .ready) (hreset : ∀ operand, i ≠ .reset operand)
    (ht : exec i s = .next t) : t.cfg = s.cfg ∧ t.lc = s.lc := by
  rcases exec_cases ht with ⟨_, _, _, _, rfl⟩ | ⟨_, _, _, hlc, _⟩ | ⟨operand, hi, _⟩ | ⟨_, _, _, hfeed⟩
  · exact ⟨rfl, rfl⟩
  · simp [hready] at hlc
  · exact absurd hi (hreset operand)
  · exact ⟨(feedLoop_frame hfeed).cfg, (feedLoop_frame hfeed).lc⟩

end

/-! ## The rules of a legal configuration -/

section
variable {c : CfgRegs} {n : Nat}

/-- Rules whose bytes are pairwise distinct are told apart by them. -/
theorem CfgRegs.rule_inj {f : Rule → Byte} (h : (c.rules.map f).Nodup) {j k : Nat} (hj : j < c.rules.length)
    (hk : k < c.rules.length) (heq : f (c.rule j) = f (c.rule k)) : j = k := by
  rw [c.rule_eq_getElem hj, c.rule_eq_getElem hk] at heq
  exact (h.getElem_inj_iff (hi := by simpa using hj) (hj := by simpa using hk)).mp (by simpa using heq)

/-- The terminator and the escape byte differ and each has a rule (R104, codes 0x04, 0x06 and 0x07). -/
theorem CfgRegs.WF.two_le_length_rules (hwf : c.WF n) : 2 ≤ c.rules.length := by
  obtain ⟨-, hne, -, hend, hesc, -, -⟩ := (c.wf_iff n).mp hwf
  have hsub : [c.endByte, c.escByte] ⊆ c.rules.map Rule.frag := by simp [hend, hesc]
  simpa using (List.subperm_of_subset (by simpa using hne) hsub).length_le

end

end Sys2Proof.Machine

/-! ## The statements -/

namespace Sys2Proof

open Sys2Proof.Machine

/-- Settles O9: an operand that fails no check builds the definition it fills to, and CONFIGURE loads it. -/
theorem configureFillsUnsetFieldsFromDefaults : Obligations.ConfigureFillsUnsetFieldsFromDefaults := by
  intro s op hlegal hlc hpass
  have hbuild := buildDefinition_of_not_fails hpass
  have hlen : (filledDefinition op).rules.length < 256 :=
    Nat.lt_succ_of_le ((rules_length_le_of_wfReason (wfReason_of_buildDefinition hbuild)).trans hlegal.2.2)
  exact ⟨_, exec_configure_of_buildDefinition hlc hbuild, rfl, rfl, rfl, rfl, s.cfg.nRules_toNat_load hlen,
    fun _ => s.cfg.getElem?_rules_load hlen⟩

/-- Settles O10: the error that CONFIGURE builds carries the lowest failing code. -/
theorem configureReportsTheLowestReason : Obligations.ConfigureReportsTheLowestReason := by
  intro s op code hlc hfails hlow
  obtain ⟨r, hbuild, hcode⟩ := exists_buildDefinition_error hfails hlow
  rw [exec_configure_of_buildDefinition_error hlc hbuild, hcode]
  rfl

/-- Settles O12: CONFIGURE is refused in `READY`, and of the other instructions only RESET writes the configuration or `LC`. -/
theorem configurationIsImmutableUntilReset : Obligations.ConfigurationIsImmutableUntilReset := by
  refine ⟨fun s op hready => exec_configure_ready hready, fun i s t hready hreset ht => ?_⟩
  obtain ⟨hcfg, hlc⟩ := exec_ready_keeps_configuration hready hreset ht
  exact ⟨hcfg, hlc.trans hready⟩

/-- Settles O14: the terminator and the escape byte have a rule each, and `FRAG` and `REPL` are pairwise distinct (R104). -/
theorem wellFormedRulesAreUnique : Obligations.WellFormedRulesAreUnique := by
  intro s hinv hready
  have hwf := hinv.ready_wf hready
  have hlen : s.cfg.rules.length = s.cfg.nRules.toNat := CfgRegs.length_rules (hinv.table_length ▸ hinv.nRules_le)
  obtain ⟨-, -, hfrag, -, -, hrepl, -⟩ := (s.cfg.wf_iff _).mp hwf
  rw [← hlen]
  exact ⟨hwf.two_le_length_rules, s.cfg.length_rules_le,
    fun j k hj hk => ⟨CfgRegs.rule_inj hfrag hj hk, CfgRegs.rule_inj hrepl hj hk⟩⟩

/-- Settles O11: eight zero bytes build the default definition, and CONFIGURE loads it. -/
theorem configureDefaultLoadsTheDefaults : Obligations.ConfigureDefaultLoadsTheDefaults := fun _ hlc hmax =>
  ⟨_, exec_configure_of_buildDefinition hlc (buildDefinition_default hmax), rfl, rfl, rfl, rfl, rfl, rfl, rfl⟩

end Sys2Proof

/-! PROOFS. Family 41_encoder: ENCODE and SEND. First the escaped form of a payload byte by byte, then what WF adds to it: no
terminator, a rule for each reserved byte, decoding undoes it, and where `CFG_ESC` can stand. Then the commands, then the statements. -/

namespace Sys2Proof.Machine

/-! ## The escaped form of a payload, byte by byte -/

section
variable (c : CfgRegs)

/-- The first rule with the byte as its `FRAG` is the rule that `fragRule` names (R110, R130). -/
theorem find?_frag_eq_map_rule (b : Byte) : c.rules.find? (fun r => r.frag == b) = (fragRule c b).map c.rule := by
  rw [List.find?_eq_bind_findIdx?_getElem?, ← fragRule]
  cases h : fragRule c b with
  | none => rfl
  | some k =>
    have hk := ((fragRule_eq_some_iff c b k).mp h).1
    simp [hk, c.rule_eq_getElem hk]

theorem escapedForm_eq_escapeByte (b : Byte) : escapedForm c b = escapeByte c b := by
  rw [escapedForm, find?_frag_eq_map_rule]
  cases h : fragRule c b with
  | none => exact (escapeByte_of_none c h).symm
  | some k => exact (escapeByte_of_some c h).symm

theorem slipEncode_eq_flatMap_escapeByte (p : List Byte) : slipEncode c p = p.flatMap (escapeByte c) := by
  simp [slipEncode_eq_flatMap_symbols, List.flatMap_map, Symbol.bytes_ofByte]

theorem flatMap_escapedForm (p : List Byte) : p.flatMap (escapedForm c) = slipEncode c p := by
  rw [slipEncode_eq_flatMap_escapeByte, funext (escapedForm_eq_escapeByte c)]

theorem slipEncode_append (p q : List Byte) : slipEncode c (p ++ q) = slipEncode c p ++ slipEncode c q := by
  simp only [slipEncode_eq_flatMap_escapeByte, List.flatMap_append]

theorem slipEncode_singleton (b : Byte) : slipEncode c [b] = escapeByte c b := by simp

variable {c}

/-- A byte of the escaped payload lies in the escaped form of one payload byte, between those of the bytes before and after it. -/
theorem exists_escapeByte_of_getElem?_slipEncode {p : List Byte} {i : Nat} {x : Byte} (h : (slipEncode c p)[i]? = some x) :
    ∃ (pre post : List Byte) (b : Byte) (j : Nat), p = pre ++ b :: post ∧ i = (slipEncode c pre).length + j ∧
      (escapeByte c b)[j]? = some x := by
  induction p generalizing i with
  | nil => simp at h
  | cons b p ih =>
    rw [slipEncode_cons, List.getElem?_append] at h
    split at h
    case isTrue hlt => exact ⟨[], p, b, i, rfl, by simp, h⟩
    case isFalse hge =>
      obtain ⟨pre, post, b', j, rfl, hi, hx⟩ := ih h
      exact ⟨b :: pre, post, b', j, rfl, by simp; omega, hx⟩

end

/-! ## The escaped form under a well-formed configuration -/

section
variable {c : CfgRegs} {n : Nat} (hwf : c.WF n)
include hwf

theorem CfgRegs.WF.endByte_notMem_slipEncode (p : List Byte) : c.endByte ∉ slipEncode c p := by
  rw [slipEncode_eq_flatMap_escapeByte, List.mem_flatMap]
  rintro ⟨b, -, hb⟩
  rw [← Symbol.bytes_ofByte] at hb
  exact (Symbol.wellEscaped_ofByte hwf b).no_end hb

/-- The terminator and the escape byte each have a rule (R104, codes 0x06 and 0x07). -/
theorem CfgRegs.WF.exists_fragRule_of_reserved {b : Byte} (hb : b = c.endByte ∨ b = c.escByte) : ∃ k, fragRule c b = some k := by
  cases h : fragRule c b with
  | some k => exact ⟨k, rfl⟩
  | none =>
    obtain ⟨hend, hesc⟩ := hwf.ne_of_fragRule_eq_none h
    exact (hb.elim hend hesc).elim

/-- The rule that escapes a byte is the rule its pair selects (R156). -/
theorem CfgRegs.WF.slipDecode_escapeByte (b : Byte) : slipDecode c (escapeByte c b) = some [b] := by
  cases h : fragRule c b with
  | none => rw [escapeByte_of_none c h, slipDecode_literal_only (hwf.ne_of_fragRule_eq_none h).2]
  | some k =>
    obtain ⟨hk, hfrag, -⟩ := (fragRule_eq_some_iff c b k).mp h
    rw [escapeByte_of_some c h, slipDecode_pair (hwf.replRule_repl hk), hfrag]

/-- `decode(encode(p)) = VALID(p)` (R155). -/
theorem CfgRegs.WF.slipDecode_slipEncode (p : List Byte) : slipDecode c (slipEncode c p) = some p := by
  induction p with
  | nil => rfl
  | cons b p ih => rw [slipEncode_cons, slipDecode_append _ (hwf.slipDecode_escapeByte b), ih]; rfl

/-- Where `CFG_ESC` can stand in the escaped form of one byte: first in a pair, or second where it is the rule's `REPL` (log 16). -/
theorem CfgRegs.WF.pair_of_escByte_in_escapeByte {b : Byte} {j : Nat} (h : (escapeByte c b)[j]? = some c.escByte) :
    ∃ k, fragRule c b = some k ∧ (j = 0 ∨ j = 1 ∧ (c.rule k).repl = c.escByte) := by
  cases hb : fragRule c b with
  | none =>
    rw [escapeByte_of_none c hb] at h
    exact absurd (List.mem_singleton.mp (List.mem_of_getElem? h)).symm (hwf.ne_of_fragRule_eq_none hb).2
  | some k =>
    rw [escapeByte_of_some c hb] at h
    refine ⟨k, rfl, ?_⟩
    match j, h with
    | 0, _ => exact .inl rfl
    | 1, h => exact .inr ⟨rfl, by simpa using h⟩
    | _ + 2, h => simp at h

end

/-! ## The commands -/

section
variable (p : List Byte) (s : State)

theorem exec_encode : exec (.encode p) s = whenReady s fun s => respond .ok (slipEncode s.cfg p) s := rfl

theorem exec_send : exec (.send p) s = whenReady s fun s => respond .ok [] (s.emit (.wire (frameOf s.cfg p))) := rfl

variable {s}

theorem exec_encode_ready (hready : s.lc = .ready) :
    exec (.encode p) s = .next (s.emit (.resp .ok (slipEncode s.cfg p))) := by
  rw [exec_encode, whenReady_ready hready, respond_eq]

theorem exec_send_ready (hready : s.lc = .ready) :
    exec (.send p) s = .next ((s.emit (.wire (frameOf s.cfg p))).emit (.resp .ok [])) := by
  rw [exec_send, whenReady_ready hready, respond_eq]

end

end Sys2Proof.Machine

/-! ## The statements -/

namespace Sys2Proof

open Sys2Proof.Machine

/-- Settles O21: the gate's two answers, and the escaped payload byte by byte. -/
theorem encodeAnswersTheEscapedPayload : Obligations.EncodeAnswersTheEscapedPayload := by
  refine fun s p => ⟨fun hlc => (exec_encode p s).trans (whenReady_unconfigured hlc _), fun hready => ?_⟩
  rw [flatMap_escapedForm]
  exact exec_encode_ready p hready

/-- Settles O22: the gate's two answers, and the frame that SEND emits before its response. -/
theorem sendEmitsOneWholeFrame : Obligations.SendEmitsOneWholeFrame := by
  refine fun s p => ⟨fun hlc => (exec_send p s).trans (whenReady_unconfigured hlc _), fun hready => ?_⟩
  rw [flatMap_escapedForm, exec_send_ready p hready]
  simp [State.emit, frameOf]

/-- Settles O23: byte by byte, each escaped form is one byte or, where a rule escapes the byte, two. -/
theorem encodeLengthLaw : Obligations.EncodeLengthLaw := by
  intro c p
  induction p with
  | nil => rfl
  | cons b p ih =>
    rw [slipEncode_cons, List.length_append, ih]
    cases h : fragRule c b with
    | none => simp [escapeByte_of_none c h, h]; omega
    | some k => simp [escapeByte_of_some c h, h]; omega

/-- Settles O24: no symbol of the escaped payload holds the terminator. -/
theorem terminatorOnlyEndsTheFrame : Obligations.TerminatorOnlyEndsTheFrame := by
  intro n c p hwf
  have hnot := hwf.endByte_notMem_slipEncode p
  exact ⟨hnot, by simp [frameOf, List.count_eq_zero.mpr hnot], by simp [frameOf]⟩

/-- Settles O25: a reserved byte has a rule, and the rule's pair decodes back to the byte. -/
theorem reservedBytesAreEscaped : Obligations.ReservedBytesAreEscaped := by
  refine ⟨fun n c b hwf hb => ?_, rfl, rfl⟩
  obtain ⟨k, hk⟩ := hwf.exists_fragRule_of_reserved hb
  have hpair := escapeByte_of_some c hk
  exact ⟨k, hk, by rw [slipEncode_singleton, hpair], hpair ▸ hwf.slipDecode_escapeByte b⟩

/-- Settles O26: the escaped form is taken byte by byte, and decoding undoes it. -/
theorem encodeConcatenatesAndIsInjective : Obligations.EncodeConcatenatesAndIsInjective := by
  refine ⟨slipEncode_append, fun n c p q hwf heq => Option.some.inj ?_⟩
  rw [← hwf.slipDecode_slipEncode p, heq, hwf.slipDecode_slipEncode q]

/-- Settles O56: the byte lies in the escaped form of one payload byte, and only a pair's form holds `CFG_ESC`. -/
theorem escapeByteBelongsToItsPair : Obligations.EscapeByteBelongsToItsPair := by
  intro n c p i hwf h
  obtain ⟨pre, post, b, j, rfl, rfl, hj⟩ := exists_escapeByte_of_getElem?_slipEncode h
  obtain ⟨k, hk, hplace⟩ := hwf.pair_of_escByte_in_escapeByte hj
  refine ⟨pre, post, b, k, rfl, hk, ?_, ?_, fun hnone => ?_⟩
  · simp [slipEncode_append, escapeByte_of_some c hk]
  · simpa using hplace
  · have hrepl := (replRule_eq_none_iff c _).mp hnone _ (c.rule_mem ((fragRule_eq_some_iff c b k).mp hk).1)
    simpa [hrepl] using hplace

end Sys2Proof

/-! PROOFS. Family 42_decoder: DECODE. Every body is legal symbols, up to its end or up to a bad escape; the scan answers what the
symbols stand for in the first case and INVALID in the second. Then the command, then the statements. -/

namespace Sys2Proof.Machine

/-! ## A body as symbols -/

section
variable {c : CfgRegs}

theorem Symbol.slipDecode_bytes {y : Symbol} (h : y.Legal c) : slipDecode c (y.bytes c) = some [y.standsFor c] := by
  cases y with
  | literal b => exact slipDecode_literal_only h
  | pair k => exact slipDecode_pair h

theorem slipDecode_symbols {symbols : List Symbol} (h : ∀ y ∈ symbols, y.Legal c) :
    slipDecode c (symbols.flatMap (Symbol.bytes c)) = some (symbols.map (Symbol.standsFor c)) := by
  induction symbols with
  | nil => rfl
  | cons y ys ih =>
    obtain ⟨hy, hys⟩ := List.forall_mem_cons.mp h
    rw [List.flatMap_cons, slipDecode_append _ (Symbol.slipDecode_bytes hy), ih hys]
    rfl

/-- The two ways for a symbol to go wrong (R76). -/
theorem MalformedAt.slipDecode_eq_none {tail : List Byte} (h : MalformedAt c tail) : slipDecode c tail = none := by
  rcases h with rfl | ⟨x, g, rfl, hx⟩
  · exact slipDecode_escape_last c
  · rw [slipDecode_escape, hx]

/-- The scan reaches a bad escape after any legal symbols, and stops there (R151). -/
theorem slipDecode_symbols_malformed {symbols : List Symbol} {tail : List Byte} (h : ∀ y ∈ symbols, y.Legal c)
    (htail : MalformedAt c tail) : slipDecode c (symbols.flatMap (Symbol.bytes c) ++ tail) = none := by
  rw [slipDecode_append tail (slipDecode_symbols h), htail.slipDecode_eq_none]
  rfl

/-- A byte that selects a rule is the second byte of that rule's pair (R110). -/
theorem Symbol.bytes_pair_of_replRule {x : Byte} {k : Nat} (h : replRule c x = some k) :
    (Symbol.pair k).Legal c ∧ (Symbol.pair k).bytes c = [c.escByte, x] := by
  obtain ⟨-, rfl, -⟩ := (replRule_eq_some_iff c x k).mp h
  exact ⟨h, rfl⟩

/-- `tail` is what the scan of a body leaves after some legal symbols (R73): nothing, or a bad escape. -/
def SplitsAt (c : CfgRegs) (f : List Byte) (symbols : List Symbol) (tail : List Byte) : Prop :=
  (∀ y ∈ symbols, y.Legal c) ∧ f = symbols.flatMap (Symbol.bytes c) ++ tail ∧ (tail = [] ∨ MalformedAt c tail)

theorem SplitsAt.cons {f tail : List Byte} {symbols : List Symbol} {y : Symbol} (hy : y.Legal c) (h : SplitsAt c f symbols tail) :
    SplitsAt c (y.bytes c ++ f) (y :: symbols) tail := by
  obtain ⟨hlegal, rfl, htail⟩ := h
  exact ⟨List.forall_mem_cons.mpr ⟨hy, hlegal⟩, by simp, htail⟩

theorem SplitsAt.of_malformedAt {f : List Byte} (h : MalformedAt c f) : SplitsAt c f [] f := ⟨by simp, rfl, .inr h⟩

theorem exists_splitsAt (c : CfgRegs) (f : List Byte) : ∃ symbols tail, SplitsAt c f symbols tail := by
  have nil : SplitsAt c [] [] [] := ⟨by simp, rfl, .inl rfl⟩
  induction f using slipDecode.induct c with
  | case1 => exact ⟨_, _, nil⟩
  | case2 => exact ⟨_, _, .of_malformedAt (.inl rfl)⟩
  | case3 b hb => exact ⟨_, _, nil.cons (y := .literal b) hb⟩
  | case4 x f k hk ih =>
    obtain ⟨symbols, tail, h⟩ := ih
    obtain ⟨hlegal, hbytes⟩ := Symbol.bytes_pair_of_replRule hk
    exact ⟨_, _, by simpa [hbytes] using h.cons hlegal⟩
  | case5 x f hk => exact ⟨_, _, .of_malformedAt (.inr ⟨x, f, rfl, hk⟩)⟩
  | case6 b x f hb ih =>
    obtain ⟨symbols, tail, h⟩ := ih
    exact ⟨_, _, h.cons (y := .literal b) hb⟩

/-- `decode(f) = VALID(m)` exactly when `f` is legal symbols to its end and `m` is what they stand for (R150). -/
theorem slipDecode_eq_some_iff {f m : List Byte} : slipDecode c f = some m ↔
    ∃ symbols : List Symbol, (∀ y ∈ symbols, y.Legal c) ∧ f = symbols.flatMap (Symbol.bytes c) ∧
      m = symbols.map (Symbol.standsFor c) := by
  constructor
  · intro h
    obtain ⟨symbols, tail, hlegal, rfl, rfl | htail⟩ := exists_splitsAt c f
    · rw [List.append_nil, slipDecode_symbols hlegal] at h
      exact ⟨symbols, hlegal, List.append_nil _, (Option.some.inj h).symm⟩
    · rw [slipDecode_symbols_malformed hlegal htail] at h
      cases h
  · rintro ⟨symbols, hlegal, rfl, rfl⟩
    exact slipDecode_symbols hlegal

/-- A symbol is one byte or two (R72). -/
theorem Symbol.length_bytes_bounds (c : CfgRegs) (y : Symbol) : 1 ≤ (y.bytes c).length ∧ (y.bytes c).length ≤ 2 := by
  cases y <;> simp [bytes]

theorem length_symbols_bounds (c : CfgRegs) (symbols : List Symbol) :
    symbols.length ≤ (symbols.flatMap (Symbol.bytes c)).length ∧
      (symbols.flatMap (Symbol.bytes c)).length ≤ 2 * symbols.length := by
  induction symbols with
  | nil => simp
  | cons y ys ih =>
    have := y.length_bytes_bounds c
    rw [List.flatMap_cons, List.length_append, List.length_cons]
    omega

end

/-! ## The command -/

section
variable {f : List Byte} {s : State}

theorem exec_decode (f : List Byte) (s : State) : exec (.decode f) s = execDecode f s := rfl

theorem exec_decode_unconfigured (hlc : s.lc = .unconfigured) :
    exec (.decode f) s = .next (s.emit (.resp .notConfigured [])) := by
  rw [exec_decode, execDecode, whenReady_unconfigured hlc]

theorem exec_decode_valid {m : List Byte} (hready : s.lc = .ready) (hm : slipDecode s.cfg f = some m) :
    exec (.decode f) s = .next (s.emit (.resp .ok m)) := by
  simp only [exec_decode, execDecode, whenReady_ready hready, hm, respond_eq]

theorem exec_decode_invalid (hready : s.lc = .ready) (hm : slipDecode s.cfg f = none) :
    exec (.decode f) s = .next (s.emit (.resp .malformedFrame [])) := by
  simp only [exec_decode, execDecode, whenReady_ready hready, hm, raise_eq, BlockError.status, BlockError.info]

end

end Sys2Proof.Machine

/-! ## The statements -/

namespace Sys2Proof

open Sys2Proof.Machine

/-- Settles O27: ENCODE answers `encode(p)`, and decoding undoes it under a well-formed configuration. -/
theorem decodeUndoesEncode : Obligations.DecodeUndoesEncode := fun _ s p hready hwf =>
  ⟨slipEncode s.cfg p, exec_encode_ready p hready, exec_decode_valid hready (hwf.slipDecode_slipEncode p)⟩

/-- Settles O28: the gate's two answers, and in READY what the scan answers for symbols and for a bad escape after them. -/
theorem decodeAnswersWhatTheSymbolsStandFor : Obligations.DecodeAnswersWhatTheSymbolsStandFor := by
  refine fun s symbols => ⟨fun hlc _ => exec_decode_unconfigured hlc, fun hready hlegal => ⟨?_, ?_⟩⟩
  · exact exec_decode_valid hready (slipDecode_symbols hlegal)
  · exact fun tail htail => exec_decode_invalid hready (slipDecode_symbols_malformed hlegal htail)

/-- Settles O29: a body is symbols to its end, which decode, or symbols up to a bad escape, which do not. -/
theorem bodyIsMalformedExactlyAtABadEscape : Obligations.BodyIsMalformedExactlyAtABadEscape := by
  intro c f
  constructor
  · intro hnone
    obtain ⟨symbols, tail, hlegal, rfl, rfl | htail⟩ := exists_splitsAt c f
    · rw [List.append_nil, slipDecode_symbols hlegal] at hnone
      cases hnone
    · exact ⟨symbols, tail, hlegal, htail, rfl⟩
  · rintro ⟨symbols, tail, hlegal, htail, rfl⟩
    exact slipDecode_symbols_malformed hlegal htail

/-- Settles O30: a valid body is symbols, each of one or two bytes and standing for one byte. -/
theorem messageLengthIsBounded : Obligations.MessageLengthIsBounded := by
  intro c f m h
  obtain ⟨symbols, -, rfl, rfl⟩ := slipDecode_eq_some_iff.mp h
  rw [List.length_map]
  exact length_symbols_bounds c symbols

end Sys2Proof

/-! PROOFS. Family 43_reassembler: FEED. A chunk is complete frames and what is left after them. First what a terminator does to the
pending frame, then the complete frames and how FEED ends on what is left, then FEED done byte by byte (R184), from which it follows
that chunk boundaries make no difference (R185), then frames of payloads, then the statements. -/

namespace Sys2Proof.Machine

/-! ## A terminator and the pending frame -/

/-- The state after a terminator has ended the pending frame `body` (R175, R176, R178). -/
def State.completed (body : List Byte) (s : State) : State :=
  if body = [] then s
  else match slipDecode s.cfg body with
    | some m => (s.emit (.msg m)).clearCursor
    | none   => s.dropMalformed.clearCursor

section
variable {s : State} {body : List Byte}

theorem State.completed_nil : s.completed [] = s := rfl

theorem State.completed_message {m : List Byte} (hne : body ≠ []) (hm : slipDecode s.cfg body = some m) :
    s.completed body = (s.emit (.msg m)).clearCursor := by
  simp [completed, hne, hm]

theorem State.completed_malformed (hne : body ≠ []) (hm : slipDecode s.cfg body = none) :
    s.completed body = s.dropMalformed.clearCursor := by
  simp [completed, hne, hm]

theorem completeFrame_eq_completed (hcap : s.wc ≤ s.params.cap) (hp : s.pending = some body) :
    completeFrame s = .ok (s.completed body) := by
  by_cases hne : body = []
  · rw [completeFrame_empty ((State.wc_eq_zero_iff hp).mpr hne), hne, State.completed_nil]
  · have hwc : 0 < s.wc := Nat.pos_of_ne_zero (mt (State.wc_eq_zero_iff hp).mp hne)
    cases hm : slipDecode s.cfg body with
    | some m => rw [completeFrame_pending hwc hcap hp, State.completed_message hne hm, hm]
    | none => rw [completeFrame_pending hwc hcap hp, State.completed_malformed hne hm, hm]

/-- A terminator after a segment that fits ends the frame of the pending bytes and the segment (R175). -/
theorem completeFrame_append {seg : List Byte} (hacc : s.acc.wf) (hp : s.pending = some body)
    (hcap : s.wc + seg.length ≤ s.params.cap) :
    completeFrame (s.append seg) = .ok ((s.append seg).completed (body ++ seg)) :=
  completeFrame_eq_completed hcap (State.pending_append seg hacc hp)

theorem State.Inv.exists_completeFrame (h : s.Inv) : ∃ t, Machine.completeFrame s = .ok t :=
  h.exists_pending.imp' _ fun _ hp => completeFrame_eq_completed h.wc_le_cap hp

end

/-! ## Complete frames, and what is left after them -/

section
variable {s t : State} {seg rest : List Byte}

/-- A segment and its terminator: what they leave alone, the cursor and the overflow counter. -/
theorem completeFrame_append_frame (ht : completeFrame (s.append seg) = .ok t) :
    FeedFrame s t ∧ t.wc = 0 ∧ t.overflowCount = s.overflowCount := by
  obtain ⟨frame, hwc, -, hover⟩ := completeFrame_frame ht
  exact ⟨(append_frame seg s).trans frame, hwc, hover⟩

theorem completeFrame_append_ready (ht : completeFrame (s.append seg) = .ok t) (hready : s.lc = .ready) : t.lc = .ready :=
  (completeFrame_append_frame ht).1.lc.trans hready

/-- After a terminator FEED goes on with the rest of the chunk (R179). With nothing left it answers, as FEED of no bytes does. -/
theorem feedChunk_terminator (hready : s.lc = .ready) (hend : s.cfg.endByte ∉ seg) (hcap : s.wc + seg.length ≤ s.params.cap)
    (ht : completeFrame (s.append seg) = .ok t) : feedChunk (seg ++ s.cfg.endByte :: rest) s = feedChunk rest t := by
  obtain ⟨-, hwc, -⟩ := completeFrame_append_frame ht
  have hready' : t.lc = .ready := completeFrame_append_ready ht hready
  rw [feedChunk, whenReady_ready hready, feedLoop_terminator hend hcap, ht]
  by_cases hrest : rest = []
  · subst hrest
    rw [feedChunk_tail hready' List.not_mem_nil (by simp [hwc]), State.fed, State.append_nil]
    rfl
  · rw [feedChunk, whenReady_ready hready']
    simp only [if_neg hrest]
    exact feedLoop_fuel t (by simp; omega) (Nat.lt_succ_self _)

theorem feedChunk_fault {f : Fault} (hready : s.lc = .ready) (hend : s.cfg.endByte ∉ seg)
    (hcap : s.wc + seg.length ≤ s.params.cap) (hf : completeFrame (s.append seg) = .error f) :
    feedChunk (seg ++ s.cfg.endByte :: rest) s = .fault f := by
  rw [feedChunk, whenReady_ready hready, feedLoop_terminator hend hcap, hf]

/-- A segment that does not fit (R174). -/
theorem feedChunk_overflow (hready : s.lc = .ready) (hend : s.cfg.endByte ∉ seg)
    (hrest : rest = [] ∨ ∃ r, rest = s.cfg.endByte :: r) (hcap : s.wc + seg.length > s.params.cap) :
    feedChunk (seg ++ rest) s = .next (s.dropOverflow.emit (.resp .bufferOverflow [])) := by
  rw [feedChunk, whenReady_ready hready, feedLoop_overflow hend hrest hcap]

end

/-- The bytes are complete frames, each a segment that fits and its terminator, and feeding them from the first state leaves the
second, before any response (R173 to R178). -/
inductive FramesFed : State → List Byte → State → Prop
  | nil (s : State) : FramesFed s [] s
  | cons {s t u : State} {seg pre : List Byte} (hend : s.cfg.endByte ∉ seg) (hcap : s.wc + seg.length ≤ s.params.cap)
      (hframe : completeFrame (s.append seg) = .ok t) (hframes : FramesFed t pre u) :
      FramesFed s (seg ++ s.cfg.endByte :: pre) u

section
variable {s u : State} {pre : List Byte} (h : FramesFed s pre u)
include h

theorem FramesFed.frame : FeedFrame s u := by
  induction h with
  | nil s => exact .refl s
  | cons _ _ hframe _ ih => exact (completeFrame_append_frame hframe).1.trans ih

theorem FramesFed.ready (hready : s.lc = .ready) : u.lc = .ready := h.frame.lc.trans hready

theorem FramesFed.overflowCount : u.overflowCount = s.overflowCount := by
  induction h with
  | nil => rfl
  | cons _ _ hframe _ ih =>
    obtain ⟨-, -, hover⟩ := completeFrame_append_frame hframe
    exact ih.trans hover

theorem FramesFed.inv (hinv : s.Inv) (hready : s.lc = .ready) : u.Inv := by
  induction h with
  | nil => exact hinv
  | cons hend hcap hframe _ ih =>
    exact ih ((hinv.append hready hend hcap).completeFrame hframe) (completeFrame_append_ready hframe hready)

/-- FEED goes on after complete frames as if what is left were fed next (R179). -/
theorem FramesFed.feedChunk_append (hready : s.lc = .ready) (rest : List Byte) :
    feedChunk (pre ++ rest) s = feedChunk rest u := by
  induction h with
  | nil => rfl
  | cons hend hcap hframe _ ih =>
    rw [List.append_assoc, List.cons_append, feedChunk_terminator hready hend hcap hframe,
      ih (completeFrame_append_ready hframe hready)]

theorem FramesFed.feedChunk_tail {tail : List Byte} (hready : s.lc = .ready) (hend : u.cfg.endByte ∉ tail)
    (hcap : u.wc + tail.length ≤ u.params.cap) : feedChunk (pre ++ tail) s = .next (u.fed tail) := by
  rw [h.feedChunk_append hready, Machine.feedChunk_tail (h.ready hready) hend hcap]

/-- With nothing after the complete frames FEED answers OK (R179). -/
theorem FramesFed.feedChunk_eq (hready : s.lc = .ready) (hwc : u.wc = 0) :
    feedChunk pre s = .next (u.emit (.resp .ok [])) := by
  have hgo := h.feedChunk_tail (tail := []) hready List.not_mem_nil (by simp [hwc])
  rwa [List.append_nil, State.fed, State.append_nil] at hgo

end

/-- How FEED ends on what is left of the chunk after its complete frames, and what it answers: the tail fits and waits (R172), a
segment overflows (R174), or the pending frame cannot be read, which happens in no legal state. -/
inductive FeedEnd (u : State) : List Byte → Result → Prop
  | waits {tail : List Byte} (hend : u.cfg.endByte ∉ tail) (hcap : u.wc + tail.length ≤ u.params.cap) :
      FeedEnd u tail (.next (u.fed tail))
  | overflows {seg rest : List Byte} (hend : u.cfg.endByte ∉ seg) (hrest : rest = [] ∨ ∃ r, rest = u.cfg.endByte :: r)
      (hcap : u.wc + seg.length > u.params.cap) :
      FeedEnd u (seg ++ rest) (.next (u.dropOverflow.emit (.resp .bufferOverflow [])))
  | faults {seg rest : List Byte} {f : Fault} (hend : u.cfg.endByte ∉ seg) (hcap : u.wc + seg.length ≤ u.params.cap)
      (hframe : completeFrame (u.append seg) = .error f) : FeedEnd u (seg ++ u.cfg.endByte :: rest) (.fault f)

/-- Everything FEED can do in `READY` (R180): complete frames, then one of the three ends. -/
theorem exists_feedEnd {s : State} (hready : s.lc = .ready) (chunk : List Byte) :
    ∃ pre rest u, chunk = pre ++ rest ∧ FramesFed s pre u ∧ FeedEnd u rest (feedChunk chunk s) := by
  induction hn : chunk.length using Nat.strong_induction_on generalizing chunk s with
  | _ n ih =>
  rcases chunk_cases chunk s.cfg.endByte with hend | ⟨seg, rest, hend, rfl⟩
  · refine ⟨[], chunk, s, rfl, .nil s, ?_⟩
    by_cases hcap : s.wc + chunk.length ≤ s.params.cap
    · rw [feedChunk_tail hready hend hcap]
      exact .waits hend hcap
    · have hover := feedChunk_overflow hready hend (.inl rfl) (Nat.lt_of_not_le hcap)
      rw [List.append_nil] at hover
      rw [hover]
      simpa using FeedEnd.overflows hend (.inl rfl) (Nat.lt_of_not_le hcap)
  · by_cases hcap : s.wc + seg.length ≤ s.params.cap
    · cases ht : completeFrame (s.append seg) with
      | error f =>
        rw [feedChunk_fault hready hend hcap ht]
        exact ⟨[], _, s, rfl, .nil s, .faults hend hcap ht⟩
      | ok t =>
        have hready' : t.lc = .ready := completeFrame_append_ready ht hready
        obtain ⟨pre, rest, u, rfl, hframes, hlast⟩ := ih rest.length (by simp at hn; omega) hready' rest rfl
        rw [feedChunk_terminator hready hend hcap ht]
        exact ⟨_, rest, u, by simp, .cons hend hcap ht hframes, hlast⟩
    · have hrest : s.cfg.endByte :: rest = [] ∨ ∃ r, s.cfg.endByte :: rest = s.cfg.endByte :: r := .inr ⟨rest, rfl⟩
      rw [feedChunk_overflow hready hend hrest (Nat.lt_of_not_le hcap)]
      exact ⟨[], _, s, rfl, .nil s, .overflows hend hrest (Nat.lt_of_not_le hcap)⟩

/-- In a legal state the pending frame can be read, so FEED completes (R265). -/
theorem State.Inv.exists_feedChunk {s : State} (h : s.Inv) (hready : s.lc = .ready) (chunk : List Byte) :
    ∃ t, feedChunk chunk s = .next t := by
  obtain ⟨pre, rest, u, -, hframes, hlast⟩ := exists_feedEnd hready chunk
  generalize feedChunk chunk s = answer at hlast
  cases hlast with
  | waits => exact ⟨_, rfl⟩
  | overflows => exact ⟨_, rfl⟩
  | faults hend hcap hframe =>
    have hu := (hframes.inv h hready).append (hframes.ready hready) hend hcap
    obtain ⟨t, ht⟩ := hu.exists_completeFrame
    cases hframe.symm.trans ht

/-- FEED completed: its complete frames, and the tail that waits or the segment that overflows. -/
theorem exists_feedEnd_of_next {s t : State} {chunk : List Byte} (hready : s.lc = .ready) (ht : feedChunk chunk s = .next t) :
    ∃ pre rest u, chunk = pre ++ rest ∧ FramesFed s pre u ∧ FeedEnd u rest (.next t) := ht ▸ exists_feedEnd hready chunk

/-! ## What FEED leaves alone -/

theorem FeedFrame.sameBesideFeed {s t : State} (h : FeedFrame s t) : s.SameBesideFeed t :=
  ⟨h.params, h.lc, h.cfg, h.inbox, h.freeTick⟩

theorem feedChunk_frame {s t : State} {chunk : List Byte} (hready : s.lc = .ready) (ht : feedChunk chunk s = .next t) :
    FeedFrame s t := by
  rw [feedChunk, whenReady_ready hready] at ht
  exact feedLoop_frame ht

/-! ## FEED that answers OK -/

theorem State.eq_of_emit_eq {s t : State} {e : Event} (h : s.emit e = t.emit e) : s = t := by
  cases s
  cases t
  simpa [State.emit] using h

/-- BUFFER_OVERFLOW is no OK. -/
theorem State.emit_bufferOverflow_ne_emit_ok (s t : State) :
    s.emit (.resp .bufferOverflow []) ≠ t.emit (.resp .ok []) := by
  intro h
  simpa using congrArg (·.trace.getLast?) h

/-- A chunk that ends in a terminator and is fed without an overflow is complete frames. -/
theorem framesFed_of_feedChunk_ok {s u : State} {pre : List Byte} (hready : s.lc = .ready)
    (hlast : pre.getLast? = some s.cfg.endByte) (h : feedChunk pre s = .next (u.emit (.resp .ok []))) : FramesFed s pre u := by
  obtain ⟨frames, rest, v, rfl, hframes, hfeed⟩ := exists_feedEnd_of_next hready h
  generalize hanswer : (Host.Outcome.next (u.emit (.resp .ok [])) : Result) = answer at hfeed
  cases hfeed with
  | waits hend =>
    have hnil : rest = [] := by
      by_contra hne
      rw [List.getLast?_append_of_ne_nil _ hne, ← hframes.frame.cfg] at hlast
      exact hend (List.mem_of_getLast? hlast)
    subst hnil
    rw [State.fed, State.append_nil] at hanswer
    obtain rfl := State.eq_of_emit_eq (Host.Outcome.next.inj hanswer)
    simpa using hframes
  | overflows => exact absurd (Host.Outcome.next.inj hanswer).symm (State.emit_bufferOverflow_ne_emit_ok _ _)
  | faults => cases hanswer

/-! ## Events of the complete frames -/

/-- What FEED can show of a complete frame (R175, R176): a message of at least one byte, or the `MALFORMED` event under SURFACE. -/
def IsFrameEvent (policy : Config.MalformedPolicy) (e : Event) : Prop :=
  (e = .malformed ∧ policy = .surface) ∨ ∃ m, e = .msg m ∧ 1 ≤ m.length

/-- `t` has `s`'s trace and then at most `n` events of complete frames. -/
def AddsFrameEvents (n : Nat) (s t : State) : Prop :=
  ∃ events, t.trace = s.trace ++ events ∧ events.length ≤ n ∧ ∀ e ∈ events, IsFrameEvent s.params.policy e

theorem addsFrameEvents_completeFrame {s t : State} (h : completeFrame s = .ok t) : AddsFrameEvents 1 s t := by
  rcases completeFrame_cases h with ⟨-, rfl⟩ | ⟨body, hwc, -, hp, ⟨m, hm, rfl⟩ | ⟨-, rfl⟩⟩
  · exact ⟨[], by simp, by simp, by simp⟩
  · have hbody : body.length = s.wc := Memory.length_of_readBytes hp
    have hhalf : body.length ≤ 2 * m.length := (messageLengthIsBounded s.cfg body m hm).2
    have hpos : 1 ≤ m.length := by omega
    exact ⟨[.msg m], rfl, by simp, by simpa [IsFrameEvent] using hpos⟩
  · refine ⟨_, s.trace_dropMalformed, ?_, ?_⟩
    · split <;> simp
    · by_cases hpolicy : s.params.policy = .surface <;> simp [hpolicy, IsFrameEvent]

theorem AddsFrameEvents.trans {m n : Nat} {s t u : State} (h : AddsFrameEvents m s t) (hu : AddsFrameEvents n t u)
    (hparams : t.params = s.params) : AddsFrameEvents (m + n) s u := by
  obtain ⟨events, htrace, hlen, hevents⟩ := h
  obtain ⟨events', htrace', hlen', hevents'⟩ := hu
  refine ⟨events ++ events', by simp [htrace, htrace'], by simp; omega, fun e he => ?_⟩
  rcases List.mem_append.mp he with he | he
  · exact hevents e he
  · exact hparams ▸ hevents' e he

theorem FramesFed.addsFrameEvents {s u : State} {pre : List Byte} (h : FramesFed s pre u) :
    AddsFrameEvents (pre.count s.cfg.endByte) s u := by
  induction h with
  | nil s => exact ⟨[], by simp, by simp, by simp⟩
  | @cons s t u seg pre hend hcap hframe _ ih =>
    have hkeep : FeedFrame s t := (completeFrame_append_frame hframe).1
    have hfirst : AddsFrameEvents 1 s t := addsFrameEvents_completeFrame (s := s.append seg) hframe
    have hcount : (seg ++ s.cfg.endByte :: pre).count s.cfg.endByte = 1 + pre.count t.cfg.endByte := by
      simp [List.count_eq_zero.mpr hend, hkeep.cfg, Nat.add_comm]
    rw [hcount]
    exact hfirst.trans ih hkeep.params

/-! ## FEED byte by byte -/

section
variable {s t : State} {b : Byte} {seg : List Byte}

theorem State.append_singleton_append (b : Byte) (bs : List Byte) (s : State) : (s.append [b]).append bs = s.append (b :: bs) := by
  simp [State.append, Memory.writeBytes, Nat.add_assoc, Nat.add_comm]

theorem feedByte_endByte (ht : completeFrame s = .ok t) : feedByte s.cfg.endByte s = .next t := by
  simp [feedByte, ht]

theorem feedByte_literal (hend : b ≠ s.cfg.endByte) (hcap : s.wc < s.params.cap) : feedByte b s = .next (s.append [b]) := by
  have hwrite := memWrite_ok (s := s) (a := s.wc) (bs := [b]) hcap
  simp only [feedByte, if_neg hend, if_neg (Nat.ne_of_lt hcap), hwrite]
  rfl

theorem feedByte_full (hend : b ≠ s.cfg.endByte) (hcap : s.wc = s.params.cap) : feedByte b s = .abort s.dropOverflow := by
  simp [feedByte, hend, hcap]

/-- A byte fed without an abort ends the pending frame or joins it. -/
theorem feedByte_cases (h : feedByte b s = .next t) :
    (b = s.cfg.endByte ∧ completeFrame s = .ok t) ∨
    (b ≠ s.cfg.endByte ∧ s.wc < s.params.cap ∧ t = s.append [b]) := by
  by_cases hend : b = s.cfg.endByte
  · subst hend
    cases ht : completeFrame s with
    | ok u => rw [feedByte_endByte ht] at h; cases h; exact .inl ⟨rfl, rfl⟩
    | error f => simp [feedByte, ht] at h
  · rcases Nat.lt_trichotomy s.wc s.params.cap with hcap | hcap | hcap
    · rw [feedByte_literal hend hcap] at h; cases h; exact .inr ⟨hend, hcap, rfl⟩
    · rw [feedByte_full hend hcap] at h; cases h
    · have hwrite : memWrite s s.wc [b] = .error .accOutOfRange := if_neg (Nat.not_le_of_lt (Nat.lt_succ_of_lt hcap))
      simp [feedByte, hend, Nat.ne_of_gt hcap, hwrite] at h

theorem feedBytes_cons_of_next (h : feedByte b s = .next t) (bs : List Byte) : feedBytes (b :: bs) s = feedBytes bs t := by
  simp [feedBytes, h]

theorem feedBytes_cons_eq_next_iff {bs : List Byte} :
    feedBytes (b :: bs) s = .next t ↔ ∃ r, feedByte b s = .next r ∧ feedBytes bs r = .next t := by
  rw [feedBytes]
  cases feedByte b s <;> simp

theorem feedBytes_segment_append (hend : s.cfg.endByte ∉ seg) (hcap : s.wc + seg.length ≤ s.params.cap) (rest : List Byte) :
    feedBytes (seg ++ rest) s = feedBytes rest (s.append seg) := by
  induction seg generalizing s with
  | nil => rw [State.append_nil]; rfl
  | cons b seg ih =>
    obtain ⟨hb, hseg⟩ := not_or.mp (mt List.mem_cons.mpr hend)
    rw [List.length_cons] at hcap
    have hstep : feedByte b s = .next (s.append [b]) := feedByte_literal (Ne.symm hb) (by omega)
    have hroom : (s.append [b]).wc + seg.length ≤ (s.append [b]).params.cap := by
      simp only [State.append, List.length_singleton]
      omega
    rw [List.cons_append, feedBytes_cons_of_next hstep, ih (s := s.append [b]) hseg hroom, State.append_singleton_append]

/-- A tail that fits is stored byte by byte as FEED stores it at once. -/
theorem feedBytes_segment (hend : s.cfg.endByte ∉ seg) (hcap : s.wc + seg.length ≤ s.params.cap) :
    feedBytes seg s = .next (s.append seg) := by
  have h := feedBytes_segment_append hend hcap []
  rwa [List.append_nil] at h

/-- The bytes of a segment that overflows are stored until the buffer is full, and the next one aborts (R184). -/
theorem feedBytes_overflow (hend : s.cfg.endByte ∉ seg) (hwc : s.wc ≤ s.params.cap) (hcap : s.wc + seg.length > s.params.cap)
    (rest : List Byte) : ∃ stored, feedBytes (seg ++ rest) s = .abort (s.append stored).dropOverflow := by
  obtain ⟨stored, b, more, rfl, hfull⟩ :
      ∃ stored b more, seg = stored ++ b :: more ∧ s.wc + stored.length = s.params.cap := by
    have hroom : s.params.cap - s.wc < seg.length := by omega
    refine ⟨seg.take (s.params.cap - s.wc), seg[s.params.cap - s.wc], seg.drop (s.params.cap - s.wc + 1), by simp, ?_⟩
    rw [List.length_take]
    omega
  have hstored : s.cfg.endByte ∉ stored := fun h => hend (List.mem_append_left _ h)
  have hb : b ≠ s.cfg.endByte := fun h => hend (by simp [h])
  have habort : feedByte b (s.append stored) = .abort (s.append stored).dropOverflow := feedByte_full hb hfull
  refine ⟨stored, ?_⟩
  rw [List.append_assoc, feedBytes_segment_append hstored (Nat.le_of_eq hfull), List.cons_append, feedBytes, habort]

/-- Bytes fed without an abort were fed in two parts, at any place (R184). -/
theorem feedBytes_append_eq_next_iff {xs ys : List Byte} :
    feedBytes (xs ++ ys) s = .next t ↔ ∃ r, feedBytes xs s = .next r ∧ feedBytes ys r = .next t := by
  induction xs generalizing s with
  | nil => exact ⟨fun h => ⟨s, rfl, h⟩, fun ⟨_, hr, h⟩ => by cases hr; exact h⟩
  | cons x xs ih =>
    rw [List.cons_append, feedBytes_cons_eq_next_iff]
    constructor
    · rintro ⟨r, hx, h⟩
      obtain ⟨q, hxs, hys⟩ := ih.mp h
      exact ⟨q, feedBytes_cons_eq_next_iff.mpr ⟨r, hx, hxs⟩, hys⟩
    · rintro ⟨q, h, hys⟩
      obtain ⟨r, hx, hxs⟩ := feedBytes_cons_eq_next_iff.mp h
      exact ⟨r, hx, ih.mpr ⟨q, hxs, hys⟩⟩

end

theorem FramesFed.feedBytes_append {s u : State} {pre : List Byte} (h : FramesFed s pre u) (rest : List Byte) :
    feedBytes (pre ++ rest) s = feedBytes rest u := by
  induction h with
  | nil => rfl
  | cons hend hcap hframe _ ih =>
    have hterminator := feedByte_endByte hframe
    rw [List.append_assoc, feedBytes_segment_append hend hcap, List.cons_append]
    exact (feedBytes_cons_of_next hterminator _).trans ih

/-- FEED that answers no BUFFER_OVERFLOW does what FEED byte by byte does, and answers OK. -/
theorem feedBytes_of_feedChunk {s t : State} {chunk : List Byte} (hready : s.lc = .ready) (ht : feedChunk chunk s = .next t)
    (hok : ¬ t.RespondedWith .bufferOverflow) : ∃ u, feedBytes chunk s = .next u ∧ t = u.emit (.resp .ok []) := by
  obtain ⟨pre, rest, u, rfl, hframes, hlast⟩ := exists_feedEnd_of_next hready ht
  cases hlast with
  | waits hend hcap => exact ⟨u.append rest, by rw [hframes.feedBytes_append, feedBytes_segment hend hcap], rfl⟩
  | overflows => exact absurd ⟨[], by simp⟩ hok

/-- A chunk that is fed byte by byte without an abort is fed, and OK is answered. -/
theorem State.Inv.feedChunk_of_feedBytes {s u : State} {chunk : List Byte} (h : s.Inv) (hready : s.lc = .ready)
    (hu : feedBytes chunk s = .next u) : feedChunk chunk s = .next (u.emit (.resp .ok [])) := by
  obtain ⟨t, ht⟩ := h.exists_feedChunk hready chunk
  obtain ⟨pre, rest, v, rfl, hframes, hlast⟩ := exists_feedEnd_of_next hready ht
  rw [hframes.feedBytes_append] at hu
  cases hlast with
  | waits hend hcap =>
    rw [feedBytes_segment hend hcap] at hu
    cases hu
    exact ht
  | overflows hend hrest hcap =>
    obtain ⟨stored, habort⟩ := feedBytes_overflow hend (hframes.inv h hready).wc_le_cap hcap _
    cases habort.symm.trans hu

theorem State.sameObs_refl (s : State) : s.SameObs s := ⟨rfl, rfl, rfl, rfl, rfl, rfl, rfl, rfl, rfl, rfl⟩

/-- An overflow discards the pending frame, so bytes stored before it are at or above the cursor. -/
theorem State.sameObs_dropOverflow_append (s : State) (stored : List Byte) :
    s.dropOverflow.SameObs (s.append stored).dropOverflow := ⟨rfl, rfl, rfl, rfl, rfl, rfl, rfl, rfl, rfl, rfl⟩

/-! ## FEED does not read what was observed -/

/-- `t` is `s` with another observation, which shows the same stream at the message port. -/
def SameStream (s t : State) : Prop := ∃ trace, t = { s with trace := trace } ∧ streamEvents trace = streamEvents s.trace

theorem SameStream.trans {s t u : State} (h : SameStream s t) (hu : SameStream t u) : SameStream s u := by
  obtain ⟨trace, rfl, htrace⟩ := h
  obtain ⟨trace', rfl, htrace'⟩ := hu
  exact ⟨trace', rfl, htrace'.trans htrace⟩

/-- A response shows nothing of the stream. -/
theorem sameStream_respond (s : State) (st : Status) (data : List Byte) : SameStream s (s.emit (.resp st data)) :=
  ⟨_, rfl, by simp [streamEvents_append]⟩

section
variable {s s' t : State} (h : SameStream s s')
include h

theorem completeFrame_sameStream (ht : completeFrame s = .ok t) : ∃ t', completeFrame s' = .ok t' ∧ SameStream t t' := by
  obtain ⟨trace, rfl, htrace⟩ := h
  rcases completeFrame_cases ht with ⟨hwc, rfl⟩ | ⟨body, hwc, hcap, hp, ⟨m, hm, rfl⟩ | ⟨hm, rfl⟩⟩
  · exact ⟨_, completeFrame_empty hwc, trace, rfl, htrace⟩
  · refine ⟨_, completeFrame_pending hwc hcap hp, ?_⟩
    simp only [hm]
    exact ⟨trace ++ [.msg m], rfl, by simp [streamEvents_append, htrace]⟩
  · refine ⟨_, completeFrame_pending hwc hcap hp, ?_⟩
    simp only [hm, State.dropMalformed_eq]
    exact ⟨_, rfl, by simp [streamEvents_append, htrace]⟩

theorem feedByte_sameStream {b : Byte} (ht : feedByte b s = .next t) : ∃ t', feedByte b s' = .next t' ∧ SameStream t t' := by
  rcases feedByte_cases ht with ⟨rfl, hframe⟩ | ⟨hend, hcap, rfl⟩
  · obtain ⟨t', ht', hsame⟩ := completeFrame_sameStream h hframe
    obtain ⟨trace, rfl, -⟩ := h
    exact ⟨t', feedByte_endByte ht', hsame⟩
  · obtain ⟨trace, rfl, htrace⟩ := h
    exact ⟨_, feedByte_literal hend hcap, trace, rfl, htrace⟩

theorem feedBytes_sameStream {bs : List Byte} (ht : feedBytes bs s = .next t) :
    ∃ t', feedBytes bs s' = .next t' ∧ SameStream t t' := by
  induction bs generalizing s s' with
  | nil => cases ht; exact ⟨s', rfl, h⟩
  | cons b bs ih =>
    obtain ⟨r, hbyte, hrest⟩ := feedBytes_cons_eq_next_iff.mp ht
    obtain ⟨r', hbyte', hsame⟩ := feedByte_sameStream h hbyte
    obtain ⟨t', hrest', hsame'⟩ := ih hsame hrest
    exact ⟨t', feedBytes_cons_eq_next_iff.mpr ⟨r', hbyte', hrest'⟩, hsame'⟩

end

/-- A stream fed in chunks, each answered, shows what it shows fed at once (R185). -/
theorem exists_execAll_feed {s u : State} {chunks : List (List Byte)} (h : s.Inv) (hready : s.lc = .ready)
    (hu : feedBytes chunks.flatten s = .next u) : ∃ t, execAll (chunks.map .feed) s = .next t ∧ SameStream u t := by
  induction chunks generalizing s u with
  | nil => cases hu; exact ⟨s, rfl, s.trace, rfl, rfl⟩
  | cons chunk chunks ih =>
    obtain ⟨r, hr, hrest⟩ := feedBytes_append_eq_next_iff.mp hu
    have hstep : exec (.feed chunk) s = .next (r.emit (.resp .ok [])) := h.feedChunk_of_feedBytes hready hr
    obtain ⟨u', hu', hsame⟩ := feedBytes_sameStream (sameStream_respond r .ok []) hrest
    have hready' : (r.emit (.resp .ok [])).lc = .ready := (feedChunk_frame hready hstep).lc.trans hready
    obtain ⟨t, ht, hsame'⟩ := ih (h.exec hstep) hready' hu'
    exact ⟨t, by simp only [List.map_cons, execAll, hstep, ht], hsame.trans hsame'⟩

/-! ## Frames that fit, from an empty buffer -/

section
variable {s : State} (h : s.Inv) (hready : s.lc = .ready) (hwc : s.wc = 0)
include h hready hwc

/-- A segment that fits in the empty buffer and its terminator are one frame, and leave the buffer empty (R177). -/
theorem State.Inv.completed_from_empty {body : List Byte} (hend : s.cfg.endByte ∉ body) (hcap : body.length ≤ s.params.cap) :
    ∃ t, t = (s.append body).completed body ∧ t.Inv ∧ t.wc = 0 ∧ FeedFrame s t ∧
      ∀ {pre u}, FramesFed t pre u → FramesFed s (body ++ s.cfg.endByte :: pre) u := by
  have hroom : s.wc + body.length ≤ s.params.cap := by omega
  have ht : Machine.completeFrame (s.append body) = .ok ((s.append body).completed body) :=
    Machine.completeFrame_append h.acc_wf (State.pending_of_wc_zero hwc) hroom
  obtain ⟨frame, hwc', -⟩ := completeFrame_append_frame ht
  exact ⟨_, rfl, (h.append hready hend hroom).completeFrame ht, hwc', frame,
    fun hframes => .cons hend hroom ht hframes⟩

/-- Frames that each fit are fed in full (R187). -/
theorem State.Inv.exists_framesFed {frames : List (List Byte)}
    (hfit : ∀ f ∈ frames, s.cfg.endByte ∉ f ∧ f.length ≤ s.params.cap) :
    ∃ u, FramesFed s (frames.flatMap fun f => f ++ [s.cfg.endByte]) u ∧ u.wc = 0 := by
  induction frames generalizing s with
  | nil => exact ⟨s, .nil s, hwc⟩
  | cons f frames ih =>
    obtain ⟨⟨hend, hcap⟩, hfit⟩ := List.forall_mem_cons.mp hfit
    obtain ⟨t, -, ht, ht_wc, frame, hcons⟩ := h.completed_from_empty hready hwc hend hcap
    obtain ⟨u, hu, hu_wc⟩ := ih ht (frame.lc.trans hready) ht_wc (by rwa [frame.cfg, frame.params])
    rw [frame.cfg] at hu
    exact ⟨u, by simpa using hcons hu, hu_wc⟩

/-- Frames of non-empty payloads that each fit arrive as their messages (R155, R175). -/
theorem State.Inv.exists_framesFed_payloads {payloads : List (List Byte)}
    (hfit : ∀ p ∈ payloads, 1 ≤ p.length ∧ (slipEncode s.cfg p).length ≤ s.params.cap) :
    ∃ u, FramesFed s (payloads.flatMap (frameOf s.cfg)) u ∧ u.wc = 0 ∧ u.trace = s.trace ++ payloads.map .msg := by
  induction payloads generalizing s with
  | nil => exact ⟨s, .nil s, hwc, by simp⟩
  | cons p payloads ih =>
    obtain ⟨⟨hpos, hcap⟩, hfit⟩ := List.forall_mem_cons.mp hfit
    have hwf := h.ready_wf hready
    have hdecode : slipDecode s.cfg (slipEncode s.cfg p) = some p := hwf.slipDecode_slipEncode p
    have hne : slipEncode s.cfg p ≠ [] := fun hnil => by
      rw [hnil, slipDecode_nil, Option.some.injEq] at hdecode
      simp [← hdecode] at hpos
    obtain ⟨t, ht_eq, ht, ht_wc, frame, hcons⟩ :=
      h.completed_from_empty hready hwc (hwf.endByte_notMem_slipEncode p) hcap
    have ht_trace : t.trace = s.trace ++ [.msg p] := by
      rw [ht_eq, State.completed_message (s := s.append _) hne hdecode]
      rfl
    obtain ⟨u, hu, hu_wc, hu_trace⟩ := ih ht (frame.lc.trans hready) ht_wc (by rwa [frame.cfg, frame.params])
    rw [frame.cfg] at hu
    exact ⟨u, by simpa [frameOf] using hcons hu, hu_wc, by simp [hu_trace, ht_trace]⟩

end

theorem streamEvents_map_msg (ms : List (List Byte)) : streamEvents (ms.map .msg) = ms.map .msg := by
  induction ms with
  | nil => rfl
  | cons m ms ih => rw [List.map_cons, streamEvents_msg_cons, ih]

/-! ## SENDs -/

/-- SENDs write the frames of their payloads, in order (R135). -/
theorem exists_execAll_send {s : State} (hready : s.lc = .ready) (payloads : List (List Byte)) :
    ∃ u, execAll (payloads.map .send) s = .next u ∧
      wireOutput u.trace = wireOutput s.trace ++ payloads.flatMap (frameOf s.cfg) := by
  induction payloads generalizing s with
  | nil => exact ⟨s, rfl, by simp⟩
  | cons p payloads ih =>
    have hstep := exec_send_ready p hready
    have hout : wireOutput ((s.emit (.wire (frameOf s.cfg p))).emit (.resp .ok [])).trace =
        wireOutput s.trace ++ frameOf s.cfg p := by
      simp [wireOutput]
    obtain ⟨u, hu, hrest⟩ := ih (s := (s.emit (.wire (frameOf s.cfg p))).emit (.resp .ok [])) hready
    refine ⟨u, by simp only [List.map_cons, execAll, hstep, hu], ?_⟩
    rw [hrest, hout]
    simp

end Sys2Proof.Machine

/-! ## The statements -/

namespace Sys2Proof

open Sys2Proof.Machine

/-- Settles O31: the chunk is one segment that waits. -/
theorem feedWithoutTerminatorWaits : Obligations.FeedWithoutTerminatorWaits := by
  intro s chunk hready hacc hend hcap
  exact ⟨s.fed chunk, feedChunk_tail hready hend hcap, rfl, fun x => Memory.read_writeBytes s.acc s.wc x chunk hacc⟩

/-- Settles O32: the segment joins the pending frame, which is empty, decodes, or does not. -/
theorem feedTerminatorCompletesTheFrame : Obligations.FeedTerminatorCompletesTheFrame := by
  intro s seg p hready hacc hend hcap hp
  have hframe := completeFrame_append hacc hp hcap
  obtain ⟨-, hwc, hstored, hover⟩ := completeFrame_frame hframe
  have hframes : FramesFed s (seg ++ [s.cfg.endByte]) _ := .cons hend hcap hframe (.nil _)
  refine ⟨_, hframes.feedChunk_eq hready hwc, hframes.frame.sameBesideFeed, hwc, hover, fun x => ?_, fun hnil => ?_,
    fun hne m hm => ?_, fun hne hm => ?_⟩
  · rw [State.acc_emit, hstored]
    exact Memory.read_writeBytes s.acc s.wc x seg hacc
  · rw [hnil, State.completed_nil]
    exact ⟨rfl, rfl⟩
  · rw [State.completed_message (s := s.append seg) hne hm]
    exact ⟨rfl, by simp [State.append]⟩
  · rw [State.completed_malformed (s := s.append seg) hne hm]
    simp [State.append]

/-- Settles O33: a chunk that ends in a terminator and answers OK is complete frames, and FEED goes on after them. -/
theorem feedGoesOnAfterATerminator : Obligations.FeedGoesOnAfterATerminator := by
  intro s u pre rest trace hready hlast _ hu htrace
  have hu_eq : u = State.emit (.resp .ok []) { u with trace := trace } := by
    cases u
    simpa [State.emit] using htrace
  rw [hu_eq] at hu
  exact (framesFed_of_feedChunk_ok hready hlast hu).feedChunk_append hready rest

/-- Settles O34: the segment overflows after complete frames, of which there may be none. -/
theorem feedOverflowDiscardsFrameAndRest : Obligations.FeedOverflowDiscardsFrameAndRest := by
  intro s u pre seg rest hready hpre _ hend hrest hcap
  have hframes : FramesFed s pre u := by
    rcases hpre with ⟨rfl, rfl⟩ | ⟨hlast, hu⟩
    · exact .nil _
    · exact framesFed_of_feedChunk_ok hready hlast hu
  rw [← hframes.frame.cfg] at hend hrest
  rw [← hframes.frame.params] at hcap
  have hrest' : rest = [] ∨ ∃ r, rest = u.cfg.endByte :: r := hrest.imp_right List.head?_eq_some_iff.mp
  rw [List.append_assoc, exec_feed, hframes.feedChunk_append hready,
    feedChunk_overflow (hframes.ready hready) hend hrest' hcap]
  rfl

/-- Settles O35: FEED completes, and keeps the state legal. -/
theorem feedCompletesWithinTheBuffer : Obligations.FeedCompletesWithinTheBuffer := by
  intro s chunk hinv hready
  obtain ⟨t, ht⟩ := hinv.exists_feedChunk hready chunk
  have ht_inv : t.Inv := hinv.exec (i := .feed chunk) ht
  have frame := feedChunk_frame hready ht
  exact ⟨t, ht, frame.sameBesideFeed, frame.params ▸ ht_inv.wc_le_cap, Option.isSome_iff_exists.mpr ht_inv.exists_pending⟩

/-- Settles O36: one event at most for each complete frame, then the answer. -/
theorem feedEmitsAtMostOneEventPerTerminator : Obligations.FeedEmitsAtMostOneEventPerTerminator := by
  intro s t chunk hready ht
  obtain ⟨pre, rest, u, rfl, hframes, hlast⟩ := exists_feedEnd_of_next hready ht
  obtain ⟨events, htrace, hlen, hevents⟩ := hframes.addsFrameEvents
  have hcount : events.length ≤ (pre ++ rest).count s.cfg.endByte := by rw [List.count_append]; omega
  cases hlast with
  | waits => exact ⟨events, .ok, by simp [State.fed, State.append, htrace], hcount, hevents⟩
  | overflows => exact ⟨events, .bufferOverflow, by simp [htrace], hcount, hevents⟩

/-- Settles O38: the frames are fed in full, and the tail waits. -/
theorem longChunkOfShortFramesIsFedInFull : Obligations.LongChunkOfShortFramesIsFedInFull := by
  intro s frames tail hinv hready hwc hfit
  obtain ⟨⟨hend, hcap⟩, hfit⟩ := List.forall_mem_cons.mp hfit
  obtain ⟨u, hframes, hu_wc⟩ := hinv.exists_framesFed hready hwc hfit
  have hu : u.Inv := hframes.inv hinv hready
  rw [← hframes.frame.cfg] at hend
  rw [← hframes.frame.params] at hcap
  exact ⟨u.fed tail, hframes.feedChunk_tail hready hend (by omega), ⟨[], by simp [State.fed]⟩, hframes.overflowCount,
    State.pending_fed tail hu.acc_wf (State.pending_of_wc_zero hu_wc)⟩

/-- Settles O39: the escaped form is at most twice as long as the payload, so the one frame fits. -/
theorem halfCapacityPayloadArrives : Obligations.HalfCapacityPayloadArrives := by
  intro s p hinv hready hwc hpos hcap
  have hdecode := (hinv.ready_wf hready).slipDecode_slipEncode p
  have hlen : (slipEncode s.cfg p).length ≤ 2 * p.length := (messageLengthIsBounded s.cfg _ p hdecode).2
  obtain ⟨u, hframes, hu_wc, hu_trace⟩ := hinv.exists_framesFed_payloads hready hwc (payloads := [p]) (by simp; omega)
  rw [List.flatMap_singleton] at hframes
  rw [flatMap_escapedForm]
  exact ⟨_, hframes.feedChunk_eq hready hu_wc, by simp [hu_trace], hu_wc⟩

/-- Settles O40: complete frames and a tail are fed byte by byte to the same state; a segment that overflows is not stored by the
one and stored up to the end of the buffer by the other, and with the cursor at 0 those bytes are not observable. -/
theorem feedIsByteSerial : Obligations.FeedIsByteSerial := by
  intro s chunk hinv
  cases hlc : s.lc with
  | unconfigured => exact ⟨_, _, whenReady_unconfigured hlc _, whenReady_unconfigured hlc _, State.sameObs_refl _⟩
  | ready =>
    obtain ⟨t, ht⟩ := hinv.exists_feedChunk hlc chunk
    obtain ⟨pre, rest, u, rfl, hframes, hlast⟩ := exists_feedEnd_of_next hlc ht
    rw [exec_feed, feedSerial, whenReady_ready hlc, ht, hframes.feedBytes_append]
    cases hlast with
    | waits hend hcap =>
      rw [feedBytes_segment hend hcap]
      exact ⟨_, _, rfl, rfl, State.sameObs_refl _⟩
    | overflows hend hrest hcap =>
      obtain ⟨stored, habort⟩ := feedBytes_overflow hend (hframes.inv hinv hlc).wc_le_cap hcap _
      rw [habort]
      exact ⟨_, _, rfl, rfl, (u.sameObs_dropOverflow_append stored).emit _⟩

/-- Settles O41: without an overflow every FEED is its bytes one by one, and the response between the chunks shows nothing of the
stream. -/
theorem chunkBoundariesMakeNoDifference : Obligations.ChunkBoundariesMakeNoDifference := by
  intro s t u v a b hinv hready ht hu hv ht_ok hu_ok hv_ok
  obtain ⟨t', ha, rfl⟩ := feedBytes_of_feedChunk hready ht ht_ok
  have hready' : (t'.emit (.resp .ok [])).lc = .ready := (feedChunk_frame hready ht).lc.trans hready
  obtain ⟨u', hb, rfl⟩ := feedBytes_of_feedChunk hready' hu hu_ok
  obtain ⟨v', hab, rfl⟩ := feedBytes_of_feedChunk hready hv hv_ok
  obtain ⟨r, hr, hrest⟩ := feedBytes_append_eq_next_iff.mp hab
  cases ha.symm.trans hr
  obtain ⟨w, hw, trace, rfl, htrace⟩ := feedBytes_sameStream (sameStream_respond t' .ok []) hrest
  cases hb.symm.trans hw
  exact ⟨by simp [streamEvents_append, htrace], rfl, rfl, rfl, rfl⟩

/-- Settles O42: SENDs write the frames of the payloads; fed at once from an empty buffer they arrive as their messages, and in
chunks they show the same stream. -/
theorem sentPayloadsArriveInOrder : Obligations.SentPayloadsArriveInOrder := by
  intro sender s payloads hinv hready hwc hsender hcfg hfit
  obtain ⟨u, hu, hout⟩ := exists_execAll_send hsender payloads
  rw [hcfg] at hout
  refine ⟨u, _, hu, hout, fun chunks hchunks => ?_⟩
  obtain ⟨r, hframes, hr_wc, hr_trace⟩ := hinv.exists_framesFed_payloads hready hwc hfit
  have hr : feedBytes chunks.flatten s = .next r := by
    have h := hframes.feedBytes_append []
    rw [List.append_nil, ← hchunks] at h
    exact h
  obtain ⟨t, ht, trace, rfl, htrace⟩ := exists_execAll_feed hinv hready hr
  refine ⟨_, ht, hr_wc, ?_⟩
  rw [htrace, hr_trace, streamEvents_append, streamEvents_map_msg]

end Sys2Proof

/-! PROOFS. Family 44_control: READ_STATUS, READ_CONFIG, RESET, the reserved opcodes and the lifecycle gate. First the readout layout of
READ_STATUS, then what each control command answers, then the statements. -/

namespace Sys2Proof.Machine

/-! ## READ_STATUS's data -/

/-- The four bytes of a number are those of its low 32 bits. -/
theorem littleEndian_mod (n : Nat) : littleEndian (n % 2 ^ 32) = littleEndian n := by
  refine List.map_congr_left fun k hk => ?_
  rw [List.mem_range] at hk
  rw [← BitVec.toNat_inj, BitVec.toNat_ofNat, BitVec.toNat_ofNat]
  interval_cases k <;> omega

theorem length_littleEndian (n : Nat) : (littleEndian n).length = 4 := by simp [littleEndian]

/-- The model's layout of R86 is the spec's; a `WC` of any size shows its low 32 bits in both. -/
theorem State.statusData_eq_statusReadout (s : State) : s.statusData = statusReadout s := by
  have hlc : s.lc.code = if s.lc = .ready then 0x01 else 0x00 := by cases s.lc <;> rfl
  simp only [statusData, statusReadout, hlc, le32_eq_littleEndian, BitVec.toNat_ofNat, littleEndian_mod]

theorem length_statusReadout (s : State) : (statusReadout s).length = 13 := by
  simp [statusReadout, length_littleEndian]

/-! ## The commands -/

section
variable (operand : List Byte) (s : State)

theorem exec_readStatus : exec (.readStatus operand) s = .next (s.emit (.resp .ok (statusReadout s))) := by
  rw [← s.statusData_eq_statusReadout]
  rfl

theorem exec_readConfig : exec (.readConfig operand) s = whenReady s fun s => respond .ok s.cfg.configData s := rfl

theorem exec_reset : exec (.reset operand) s = .next (s.applyReset.emit (.resp .ok [])) := rfl

theorem exec_reserved (op : Byte) : exec (.reserved op operand) s = .next (s.emit (.resp .illegalCommand [])) := rfl

end

end Sys2Proof.Machine

namespace Sys2Proof

open Sys2Proof.Machine

/-! ## The reserved opcodes -/

/-- The range of the reserved opcodes (R82). -/
theorem opReserved_iff {op : Byte} : opReserved op = true ↔ op.toNat = 0 ∨ 9 ≤ op.toNat := by
  simp [opReserved, ← BitVec.toNat_inj]

/-! ## The statements -/

/-- Settles O15: READ_STATUS answers the model's layout, which is the spec's 13 bytes. -/
theorem readStatusAnswersTheRegisters : Obligations.ReadStatusAnswersTheRegisters := fun s operand =>
  ⟨exec_readStatus operand s, length_statusReadout s⟩

/-- Settles O16: the gate's refusal, and in `READY` the layout of R87. -/
theorem readConfigAnswersTheDefinition : Obligations.ReadConfigAnswersTheDefinition := fun s operand =>
  ⟨fun hlc => (exec_readConfig operand s).trans (whenReady_unconfigured hlc _),
    fun hready hcount => exec_readConfig_ready hready hcount operand⟩

/-- Settles O18: what each of the three commands answers is given by an equation whose right side has no operand. -/
theorem controlOperandsAreIgnored : Obligations.ControlOperandsAreIgnored := fun s a b =>
  ⟨(exec_readStatus a s).trans (exec_readStatus b s).symm, (exec_readConfig a s).trans (exec_readConfig b s).symm,
    (exec_reset a s).trans (exec_reset b s).symm⟩

/-- Settles O19: an opcode outside `0x01`–`0x08` decodes to the reserved row, whose only effect is its response. -/
theorem reservedOpcodesAnswerIllegalCommand : Obligations.ReservedOpcodesAnswerIllegalCommand := fun s op operand h =>
  ⟨decodeCommand_reserved (opReserved_iff.mpr h) operand, exec_reserved operand s op⟩

/-- Settles O20: FEED, the wire symbols and the four commands stand behind the one gate, and CONFIGURE in `READY` is refused by
its own check. -/
theorem lifecycleGateRefusesWithoutWriting : Obligations.LifecycleGateRefusesWithoutWriting := by
  refine ⟨fun s i hlc hgated => ?_, fun s op hready => exec_configure_ready hready⟩
  rcases hgated with hfeed | ⟨p, rfl | rfl | rfl | rfl⟩
  · obtain ⟨chunk, hchunk⟩ := exec_feeds hfeed s
    exact hchunk.trans (whenReady_unconfigured hlc _)
  · exact (exec_encode p s).trans (whenReady_unconfigured hlc _)
  · exact (exec_send p s).trans (whenReady_unconfigured hlc _)
  · exact exec_decode_unconfigured hlc
  · exact (exec_readConfig p s).trans (whenReady_unconfigured hlc _)

end Sys2Proof

/-! PROOFS. Family 60_exceptions: BUFFER_OVERFLOW is the one exception that counts in OVERFLOW_COUNT, at most once per FEED. -/

namespace Sys2Proof.Machine

theorem State.respondedWith_emit (s : State) (st : Status) (data : List Byte) :
    (s.emit (.resp st data)).RespondedWith st := ⟨data, List.getLast?_concat⟩

end Sys2Proof.Machine

namespace Sys2Proof

open Sys2Proof.Machine

/-- Settles O37: the complete frames leave the overflow counter alone, and FEED stops at the segment that overflows. -/
theorem feedOverflowsAtMostOnce : Obligations.FeedOverflowsAtMostOnce := by
  intro s t chunk hready ht
  obtain ⟨pre, rest, u, -, hframes, hlast⟩ := exists_feedEnd_of_next hready ht
  have hover : u.overflowCount = s.overflowCount := hframes.overflowCount
  cases hlast with
  | waits => exact .inl ⟨State.respondedWith_emit _ _ _, hover⟩
  | overflows => exact .inr ⟨State.respondedWith_emit _ _ _, congrArg (· + 1) hover, rfl⟩

end Sys2Proof

/-! PROOFS. Family 70_reset_and_hazards: what power-on and RESET leave, that every step of a legal state completes, and what is left
alone or not read: by the codec and readout commands, of `CFG_MAXLEN`, and of the configuration registers while `UNCONFIGURED`. -/

namespace Sys2Proof.Machine

open Sys2Proof

/-! ## Power-on -/

theorem State.inv_resetWith {p : Config.Params} (h : p.Legal) : (State.resetWith p).Inv where
  params_legal := h
  acc_wf := List.Pairwise.nil
  acc_range := by simp
  wc_le_cap := by simp
  pending_written := by simp
  table_length := List.length_replicate
  nRules_le := by simp [CfgRegs.atPowerOn]
  ready_wf := by simp
  unconfigured_wc _ := rfl
  pending_no_end := by simp

/-! ## Every instruction completes -/

/-- The gate refuses by completing, so a gated command completes if it does in `READY` (R204). -/
theorem exists_whenReady {s : State} {run : State → Result} (hrun : s.lc = .ready → ∃ t, run s = .next t) :
    ∃ t, whenReady s run = .next t := by
  cases hlc : s.lc with
  | unconfigured => exact ⟨_, whenReady_unconfigured hlc run⟩
  | ready =>
    rw [whenReady_ready hlc]
    exact hrun hlc

/-- CONFIGURE loads the definition that its operand builds, and answers an error otherwise (R106). -/
theorem exists_exec_configure (operand : List Byte) (s : State) : ∃ t, exec (.configure operand) s = .next t := by
  cases hlc : s.lc with
  | ready => exact ⟨_, exec_configure_ready hlc⟩
  | unconfigured =>
    cases hbuild : buildDefinition s.params.nRulesMax operand with
    | error r => exact ⟨_, exec_configure_of_buildDefinition_error hlc hbuild⟩
    | ok d => exact ⟨_, exec_configure_of_buildDefinition hlc hbuild⟩

/-- DECODE answers a malformed body too (R154). -/
theorem exists_exec_decode (body : List Byte) (s : State) : ∃ t, exec (.decode body) s = .next t := by
  cases hlc : s.lc with
  | unconfigured => exact ⟨_, exec_decode_unconfigured hlc⟩
  | ready =>
    cases hm : slipDecode s.cfg body with
    | some m => exact ⟨_, exec_decode_valid hlc hm⟩
    | none => exact ⟨_, exec_decode_invalid hlc hm⟩

/-- Only FEED reads `ACC`, and in a legal state it reads written bytes alone (R34), so every instruction completes. -/
theorem State.Inv.exists_exec {s : State} (h : s.Inv) (i : Instr) : ∃ t, Machine.exec i s = .next t := by
  by_cases hfeed : isFeed i = true
  · obtain ⟨chunk, hchunk⟩ := exec_feeds hfeed s
    rw [hchunk]
    cases hlc : s.lc with
    | unconfigured => exact ⟨_, whenReady_unconfigured hlc _⟩
    | ready => exact h.exists_feedChunk hlc chunk
  · cases i with
    | configure operand => exact exists_exec_configure operand s
    | decode body => exact exists_exec_decode body s
    | encode | send | readConfig =>
      simp only [exec_encode, exec_send, exec_readConfig]
      exact exists_whenReady fun _ => ⟨_, rfl⟩
    | readStatus | reset | reserved => exact ⟨_, rfl⟩
    | feed | wireLiteral | wireEnd | wireEscPair | wireEscEndDefault | wireEscEscDefault | wireInvalidEscLast
    | wireInvalidEscOther => exact absurd rfl hfeed

/-! ## Another value of `CFG_MAXLEN` -/

/-- `s` with another value of `CFG_MAXLEN`. -/
def State.setMaxLen (maxLen : Word32) (s : State) : State := { s with cfg := { s.cfg with maxLen := maxLen } }

/-- The same answer but for `CFG_MAXLEN`: where the first completes the second does, in the same state with the value `maxLen`. -/
def SameUpToMaxLen (maxLen : Word32) (r r' : Result) : Prop := ∀ t, r = .next t → r' = .next (t.setMaxLen maxLen)

section
variable (maxLen : Word32) (s : State)

/-- `decode` reads the escape byte and the rules (R150). -/
theorem slipDecode_setMaxLen (f : List Byte) : slipDecode (s.setMaxLen maxLen).cfg f = slipDecode s.cfg f := by
  have hesc : (s.setMaxLen maxLen).cfg.escByte = s.cfg.escByte := rfl
  have hrepl : replRule (s.setMaxLen maxLen).cfg = replRule s.cfg := rfl
  have hrule : (s.setMaxLen maxLen).cfg.rule = s.cfg.rule := rfl
  fun_induction slipDecode s.cfg f <;> simp [slipDecode, *]

/-- `encode` reads the escape byte and the rules (R130). -/
theorem slipEncode_setMaxLen (p : List Byte) : slipEncode (s.setMaxLen maxLen).cfg p = slipEncode s.cfg p := by
  rw [slipEncode_eq_flatMap_escapeByte, slipEncode_eq_flatMap_escapeByte]
  rfl

theorem frameOf_setMaxLen (p : List Byte) : frameOf (s.setMaxLen maxLen).cfg p = frameOf s.cfg p := by
  rw [frameOf, frameOf, slipEncode_setMaxLen]
  rfl

theorem dropMalformed_setMaxLen : (s.setMaxLen maxLen).dropMalformed = s.dropMalformed.setMaxLen maxLen := by
  rw [State.dropMalformed_eq, State.dropMalformed_eq]
  rfl

theorem sameUpToMaxLen_respond (st : Status) (data : List Byte) :
    SameUpToMaxLen maxLen (respond st data s) (respond st data (s.setMaxLen maxLen)) := by
  rintro t ⟨⟩
  rfl

variable {s}

/-- The gate reads `LC` alone (R204). -/
theorem sameUpToMaxLen_whenReady {run : State → Result}
    (hrun : s.lc = .ready → SameUpToMaxLen maxLen (run s) (run (s.setMaxLen maxLen))) :
    SameUpToMaxLen maxLen (whenReady s run) (whenReady (s.setMaxLen maxLen) run) := by
  cases hlc : s.lc with
  | unconfigured =>
    rw [whenReady_unconfigured hlc, whenReady_unconfigured (s := s.setMaxLen maxLen) hlc]
    exact sameUpToMaxLen_respond maxLen s _ _
  | ready =>
    rw [whenReady_ready hlc, whenReady_ready (s := s.setMaxLen maxLen) hlc]
    exact hrun hlc

/-- A complete frame is decoded and its message emitted whatever its length (R175). -/
theorem completeFrame_setMaxLen {t : State} (ht : completeFrame s = .ok t) :
    completeFrame (s.setMaxLen maxLen) = .ok (t.setMaxLen maxLen) := by
  rcases completeFrame_cases ht with ⟨hwc, rfl⟩ | ⟨body, hwc, hcap, hp, hresult⟩
  · exact completeFrame_empty hwc
  · rw [completeFrame_pending (s := s.setMaxLen maxLen) hwc hcap hp, slipDecode_setMaxLen]
    rcases hresult with ⟨m, hm, rfl⟩ | ⟨hm, rfl⟩
    · rw [hm]
      rfl
    · rw [hm, dropMalformed_setMaxLen]
      rfl

theorem FramesFed.setMaxLen {u : State} {pre : List Byte} (h : FramesFed s pre u) :
    FramesFed (s.setMaxLen maxLen) pre (u.setMaxLen maxLen) := by
  induction h with
  | nil s => exact .nil _
  | cons hend hcap hframe _ ih => exact .cons hend hcap (completeFrame_setMaxLen maxLen hframe) ih

/-- FEED's only bound on a frame is the buffer (R174). -/
theorem sameUpToMaxLen_feedChunk (chunk : List Byte) :
    SameUpToMaxLen maxLen (feedChunk chunk s) (feedChunk chunk (s.setMaxLen maxLen)) := by
  intro t ht
  rcases whenReady_cases ht with ⟨hlc, rfl⟩ | ⟨hready, -⟩
  · exact whenReady_unconfigured (s := s.setMaxLen maxLen) hlc _
  · obtain ⟨pre, rest, u, rfl, hframes, hlast⟩ := exists_feedEnd_of_next hready ht
    have hready' : (u.setMaxLen maxLen).lc = .ready := hframes.ready hready
    rw [(hframes.setMaxLen maxLen).feedChunk_append hready]
    cases hlast with
    | waits hend hcap => exact feedChunk_tail hready' hend hcap
    | overflows hend hrest hcap => exact feedChunk_overflow hready' hend hrest hcap

/-- No instruction but CONFIGURE, READ_CONFIG and RESET reads or writes `CFG_MAXLEN` (R259). -/
theorem sameUpToMaxLen_exec {i : Instr} (hi : ∀ p, i ≠ .configure p ∧ i ≠ .readConfig p ∧ i ≠ .reset p) :
    SameUpToMaxLen maxLen (exec i s) (exec i (s.setMaxLen maxLen)) := by
  cases i with
  | configure | readConfig | reset => simp at hi
  | encode payload =>
    rw [exec_encode, exec_encode]
    refine sameUpToMaxLen_whenReady maxLen fun _ => ?_
    rw [slipEncode_setMaxLen]
    exact sameUpToMaxLen_respond maxLen s _ _
  | send payload =>
    rw [exec_send, exec_send]
    refine sameUpToMaxLen_whenReady maxLen fun _ => ?_
    rw [frameOf_setMaxLen]
    exact sameUpToMaxLen_respond maxLen (s.emit (.wire (frameOf s.cfg payload))) _ _
  | decode body =>
    rw [exec_decode, exec_decode]
    refine sameUpToMaxLen_whenReady maxLen fun _ => ?_
    simp only [slipDecode_setMaxLen]
    cases slipDecode s.cfg body with
    | some m => exact sameUpToMaxLen_respond maxLen s _ _
    | none => exact sameUpToMaxLen_respond maxLen s _ _
  | readStatus | reserved => exact sameUpToMaxLen_respond maxLen s _ _
  | feed | wireLiteral | wireEnd | wireEscPair | wireEscEndDefault | wireEscEscDefault | wireInvalidEscLast
  | wireInvalidEscOther => exact sameUpToMaxLen_feedChunk maxLen _

end

/-! ## Other configuration registers while `UNCONFIGURED` -/

/-- `s` with other contents of the configuration registers. -/
def State.setCfg (c : CfgRegs) (s : State) : State := { s with cfg := c }

/-- The same to every observer: the configuration registers may differ but for the definition in force, which there is in `READY`
alone (R251). -/
structure State.SameBesideUnspecified (t t' : State) : Prop where
  trace : t'.trace = t.trace
  lc : t'.lc = t.lc
  wc : t'.wc = t.wc
  acc : t'.acc = t.acc
  malformedCount : t'.malformedCount = t.malformedCount
  overflowCount : t'.overflowCount = t.overflowCount
  inbox : t'.inbox = t.inbox
  definition : t.lc = .ready → t'.cfg.definition = t.cfg.definition

section
variable {s : State} (c : CfgRegs)

/-- No definition is in force while `UNCONFIGURED`. -/
theorem State.sameBesideUnspecified_setCfg (hlc : s.lc = .unconfigured) : s.SameBesideUnspecified (s.setCfg c) :=
  ⟨rfl, rfl, rfl, rfl, rfl, rfl, rfl, fun hready => by simp [hlc] at hready⟩

/-- CONFIGURE writes every register that the definition in force is read from (R106). -/
theorem State.sameBesideUnspecified_load {d : Definition} (hlen : d.rules.length < 256) :
    State.SameBesideUnspecified { s with cfg := s.cfg.load d, lc := .ready } { s with cfg := c.load d, lc := .ready } :=
  ⟨rfl, rfl, rfl, rfl, rfl, rfl, rfl, fun _ => (c.definition_load d hlen).trans (s.cfg.definition_load d hlen).symm⟩

theorem State.SameBesideUnspecified.emit {t t' : State} (h : t.SameBesideUnspecified t') (e : Event) :
    (t.emit e).SameBesideUnspecified (t'.emit e) :=
  { h with trace := congrArg (· ++ [e]) h.trace }

/-- CONFIGURE builds its definition from the operand and a parameter (R106). -/
theorem exists_exec_configure_setCfg {operand : List Byte} {t : State} (hlegal : s.params.Legal) (hlc : s.lc = .unconfigured)
    (ht : exec (.configure operand) s = .next t) :
    ∃ t', exec (.configure operand) (s.setCfg c) = .next t' ∧ t.SameBesideUnspecified t' := by
  cases hbuild : buildDefinition s.params.nRulesMax operand with
  | error r =>
    rw [exec_configure_of_buildDefinition_error hlc hbuild] at ht
    cases ht
    exact ⟨_, exec_configure_of_buildDefinition_error (s := s.setCfg c) hlc hbuild,
      (State.sameBesideUnspecified_setCfg c hlc).emit _⟩
  | ok d =>
    have hlen : d.rules.length < 256 :=
      Nat.lt_succ_of_le ((rules_length_le_of_wfReason (wfReason_of_buildDefinition hbuild)).trans hlegal.2.2)
    rw [exec_configure_of_buildDefinition hlc hbuild] at ht
    cases ht
    exact ⟨_, exec_configure_of_buildDefinition (s := s.setCfg c) hlc hbuild, (State.sameBesideUnspecified_load c hlen).emit _⟩

/-- While `UNCONFIGURED` no instruction shows what the configuration registers hold: the gate refuses every instruction that would read
them (R204), and RESET leaves them unspecified again (R250). -/
theorem exists_exec_setCfg {i : Instr} {t : State} (hlegal : s.params.Legal) (hlc : s.lc = .unconfigured)
    (ht : exec i s = .next t) : ∃ t', exec i (s.setCfg c) = .next t' ∧ t.SameBesideUnspecified t' := by
  cases i with
  | configure operand => exact exists_exec_configure_setCfg c hlegal hlc ht
  | readStatus | reserved =>
    cases ht
    exact ⟨_, rfl, (State.sameBesideUnspecified_setCfg c hlc).emit _⟩
  | reset =>
    cases ht
    exact ⟨_, rfl, State.sameBesideUnspecified_setCfg _ rfl⟩
  | encode | send | decode | readConfig | feed | wireLiteral | wireEnd | wireEscPair | wireEscEndDefault | wireEscEscDefault
  | wireInvalidEscLast | wireInvalidEscOther =>
    obtain ⟨hrefuse, -⟩ := lifecycleGateRefusesWithoutWriting
    rw [hrefuse s _ hlc (by simp [isFeed])] at ht
    cases ht
    exact ⟨_, hrefuse (s.setCfg c) _ hlc (by simp [isFeed]), (State.sameBesideUnspecified_setCfg c hlc).emit _⟩

/-- While `UNCONFIGURED` the decoder reads no configuration register either: every wire byte is a literal (log 8). -/
theorem decodeInput_unconfigured (c' : CfgRegs) (input : Input) :
    decodeInput .unconfigured c input = decodeInput .unconfigured c' input := by
  cases input <;> rfl

theorem exists_step_setCfg {t : State} (hlegal : s.params.Legal) (hlc : s.lc = .unconfigured) (ht : step s = .next t) :
    ∃ t', step (s.setCfg c) = .next t' ∧ t.SameBesideUnspecified t' := by
  cases hin : s.inbox with
  | nil =>
    rw [step_of_inbox_nil hin] at ht
    cases ht
    exact ⟨_, step_of_inbox_nil hin, State.sameBesideUnspecified_setCfg c hlc⟩
  | cons input queue =>
    have hdecode : decodeInput (s.setCfg c).lc (s.setCfg c).cfg input = decodeInput s.lc s.cfg input := by
      rw [State.setCfg, hlc]
      exact decodeInput_unconfigured ..
    rw [step_of_inbox_cons hin] at ht
    rw [step_of_inbox_cons (s := s.setCfg c) hin, hdecode]
    generalize (decodeInput s.lc s.cfg input).2.toList ++ queue = left at ht ⊢
    exact exists_exec_setCfg (s := { s with inbox := left }) c hlegal hlc ht

end

end Sys2Proof.Machine

namespace Sys2Proof

open Sys2Proof.Machine

/-! ## The statements -/

/-- Settles O4: a step waits or runs an instruction, and every instruction completes in a legal state. -/
theorem everyStepCompletes : Obligations.EveryStepCompletes := by
  intro s hinv
  cases hin : s.inbox with
  | nil => exact ⟨s, step_of_inbox_nil hin⟩
  | cons input queue =>
    rw [State.Steps, step_of_inbox_cons hin]
    exact (hinv.setInbox _).exists_exec _

/-- Settles O49: an instruction that does not configure, reset or feed answers, and its answer adds to the trace alone. -/
theorem readAndCodecCommandsChangeNoState : Obligations.ReadAndCodecCommandsChangeNoState := by
  intro i s t hi ht
  rcases exec_cases ht with ⟨events, st, data, -, rfl⟩ | ⟨_, _, rfl, _⟩ | ⟨_, rfl, _⟩ | ⟨hfeed, _⟩
  · exact ⟨events ++ [.resp st data], by rw [State.OnlyTrace, List.append_assoc]⟩
  · simp at hi
  · simp at hi
  · obtain ⟨p, rfl | rfl | rfl | rfl | rfl⟩ := hi <;> simp [isFeed] at hfeed

/-- Settles O52: `CFG_MAXLEN` is read by no instruction but CONFIGURE, READ_CONFIG and RESET. -/
theorem maxMessageLengthIsNotEnforced : Obligations.MaxMessageLengthIsNotEnforced := fun _ _ t maxLen hi ht =>
  sameUpToMaxLen_exec maxLen hi t ht

/-- Settles O53: clause by clause, the step with other registers gives the same to every observer. -/
theorem unspecifiedConfigurationIsNotObservable : Obligations.UnspecifiedConfigurationIsNotObservable := by
  intro s t c hlegal hlc ht
  obtain ⟨t', ht', h⟩ := exists_step_setCfg c hlegal hlc ht
  exact ⟨t', ht', h.trace, h.lc, h.wc, h.acc, h.malformedCount, h.overflowCount, h.inbox, h.definition⟩

/-- Settles O1: power-on is a literal state, and RESET writes the four registers before its one response. -/
theorem powerOnAndResetClearTheBlock : Obligations.PowerOnAndResetClearTheBlock :=
  ⟨fun _ => ⟨⟨rfl, rfl, rfl, rfl⟩, rfl⟩,
    fun s operand => ⟨_, exec_reset operand s, ⟨rfl, rfl, rfl, rfl⟩, rfl, rfl, rfl⟩⟩

/-- Settles O2: nothing is pending at power-on, and the empty rule set is in its range. -/
theorem powerOnStateIsLegal : Obligations.PowerOnStateIsLegal := fun _ hlegal => State.inv_resetWith hlegal

end Sys2Proof
